-- ==== Sys2Proof/Word.lean ====
section
/-! DEFINITION. The byte and the 32-bit word of the command port (spec/00_scope.md R12, spec/20_memory.md R37). -/

namespace Sys2Proof

/-- An 8-bit unsigned value (R12). A byte sequence is a `List Byte`. -/
abbrev Byte := BitVec 8

/-- A command or response word (R37, R54, R56). Bit 0 is the least significant bit. -/
abbrev Word := BitVec 32

end Sys2Proof
end

