-- ==== Sys2Proof/Config.lean ====
section
/-! DEFINITION. What a build of the block fixes: the constants the frame and word layouts force, and the record of
implementation parameters (spec/00_scope.md R11). The parameters' default VALUES are in Machine/Defaults.lean. -/

namespace Sys2Proof

/-- Header length in bytes, `HDR_SIZE` (R11): one delimiter, one tag, two length bytes. -/
def Config.hdrSize : Nat := 4

/-- Largest payload length, `MAX_PAYLOAD` (R11): the largest 16-bit size. -/
def Config.maxPayload : Nat := 65535

/-- Most operand bytes one command carries, `MAX_CHUNK` (R11): the largest 24-bit `LEN` (R54). Log entry 14. -/
def Config.maxChunk : Nat := 16777215

/-- `CAPACITY_MODE` (R11, 92 D10): whether the storage caps are enforced. -/
inductive CapacityMode where
  | enforced
  | unbounded
  deriving DecidableEq, Repr

/-- The parameters a build fixes and no command changes (R11, R121). `N_INSTANCES` is not here: it is the length
of the list of blocks (log entry 6). In `unbounded` mode the two caps are not read (R85). -/
structure Params where
  /-- `DELIM`, the byte every header starts with. -/
  delim : Byte
  /-- `CAPACITY_MODE`. -/
  capacityMode : CapacityMode
  /-- `QUEUE_DEPTH`, the most frames DECODED holds in `enforced` mode. -/
  queueDepth : Nat
  /-- `PENDING_CAP`, the most bytes PENDING holds in `enforced` mode. -/
  pendingCap : Nat
  deriving DecidableEq, Repr

/-- The constraints a model checks on its parameters (R11, 92 D32). -/
abbrev Params.Valid (p : Params) : Prop :=
  1 ≤ p.queueDepth ∧ p.queueDepth ≤ 65535 ∧
    Config.hdrSize + Config.maxPayload ≤ p.pendingCap ∧ p.pendingCap ≤ 4294967295

end Sys2Proof
end

