-- ==== Sys2Proof/Machine/Defaults.lean ====
section
/-! DEFINITION. The default values of the implementation parameters (spec/00_scope.md R11). The source's numbers are
unaudited (spec/91_not_in_source.md N7), so they stand where a repair can mend them. -/

namespace Sys2Proof.Machine

/-- `DELIM` = 0x00 (R11, 92 D23). -/
def defaultDelim : Byte := 0x00#8

/-- `QUEUE_DEPTH` = 256 (R11, 92 D10). -/
def defaultQueueDepth : Nat := 256

/-- `PENDING_CAP` = 3 × 65535 = 196605 (R11, 92 D10). -/
def defaultPendingCap : Nat := 196605

/-- The parameters at the values the spec states (R11): `Enforced`, 256 frames, 196605 bytes, delimiter 0x00. -/
def defaultParams : Params :=
  { delim := defaultDelim, capacityMode := .enforced,
    queueDepth := defaultQueueDepth, pendingCap := defaultPendingCap }

end Sys2Proof.Machine
end

