-- ==== Sys2Proof/Syntax.lean ====
section
/-! DEFINITION. The instructions: one constructor for each row of spec/opcode_table.json. -/

namespace Sys2Proof

/-- The five commands of the command port (spec/30_encoding.md R55) and the wire frame (row FRAME, R47, R48). The
reserved command encodings (R59) are no rows of the table: the decoder rejects them by name. -/
inductive Instr where
  /-- WRITE (R73): feed one chunk of the byte stream. PUMP (R63) is `write []`. -/
  | write (data : List Byte)
  /-- NEXT (R91): take the oldest decoded frame. -/
  | next
  /-- PARSE (R72): inspect a buffer with the Header Parser. -/
  | parse (data : List Byte)
  /-- STATUS (R93): report STATE and the two counts. -/
  | status
  /-- RESET (R94): back to the just-created state. -/
  | reset
  /-- FRAME (R47, R48): one whole frame on the wire. It is no command; it reaches the block as the WRITE that carries
  exactly it, WRITEF of R64 (log entry 8). -/
  | frame (tag : Byte) (payload : List Byte)
  deriving DecidableEq, Repr

end Sys2Proof
end

