-- ==== Sys2Proof/WellFormed.lean ====
section
/-! DEFINITION. Which instructions can be encoded: the operand of a command fits the 24-bit LEN field
(spec/30_encoding.md R54), the payload of a frame the 16-bit size (R47). -/

namespace Sys2Proof

/-- The instruction has an encoding (R47, R54). -/
def Instr.wellFormed : Instr → Bool
  | .write data => decide (data.length ≤ Config.maxChunk)
  | .parse data => decide (data.length ≤ Config.maxChunk)
  | .frame _ payload => decide (payload.length ≤ Config.maxPayload)
  | .next => true
  | .status => true
  | .reset => true

/-- The instruction is one of the five commands of the port (R55), not the wire frame. -/
def Instr.isCommand : Instr → Bool
  | .frame _ _ => false
  | .write _ => true
  | .next => true
  | .parse _ => true
  | .status => true
  | .reset => true

end Sys2Proof
end

