-- ==== Sys2Proof/Decode.lean ====
section
/-! DEFINITION. The decoder and the encoder of the command port (spec/30_encoding.md R53 to R55, R59) and of the wire
frame (R47 to R49), with the byte and bit-field helpers they use. -/

namespace Sys2Proof

/-! ## Byte order -/

/-- Four bytes as a word, most significant byte first (spec/20_memory.md R37, R38). -/
def wordOfBytes (b0 b1 b2 b3 : Byte) : Word := b0 ++ b1 ++ b2 ++ b3

/-- A word as four bytes, most significant byte first (R37). -/
def bytesOfWord (w : Word) : List Byte :=
  [w.extractLsb' 24 8, w.extractLsb' 16 8, w.extractLsb' 8 8, w.extractLsb' 0 8]

/-- The big-endian 16-bit number of two bytes, `hi × 256 + lo` (R36). -/
def halfOfBytes (hi lo : Byte) : BitVec 16 := hi ++ lo

/-- `hi = n >> 8` and `lo = n & 0xFF` (R64). -/
def bytesOfHalf (n : Nat) : List Byte := [BitVec.ofNat 8 (n >>> 8), BitVec.ofNat 8 (n &&& 0xFF)]

/-! ## The command word -/

/-- `OP = CMD[7:0]` (R54). -/
def cmdOp (w : Word) : Byte := w.extractLsb' 0 8

/-- `LEN = CMD[31:8]`, zero-extended (R54, R60). -/
def cmdLen (w : Word) : Nat := (w.extractLsb' 8 24).toNat

/-- The command word with the given opcode and operand length, `(len << 8) | op` (R54, R62). -/
def cmdWord (op : Byte) (len : Nat) : Word := BitVec.ofNat 24 len ++ op

/-- The opcode map of R55, with the LEN a command must have: the instruction of an opcode and its operand bytes.
`none` is a reserved encoding (R59). -/
def instrOf (op : Byte) (operand : List Byte) : Option Instr :=
  match op.toNat with
  | 1 => some (.write operand)
  | 2 => if operand = [] then some .next else none
  | 3 => some (.parse operand)
  | 4 => if operand = [] then some .status else none
  | 5 => if operand = [] then some .reset else none
  | _ => none

/-- What the command port reads from the bytes the host has sent. -/
inductive Decoded where
  /-- A defined command, and the bytes after it. -/
  | instr (i : Instr) (rest : List Byte)
  /-- A reserved encoding (R59) with the operand bytes that are read and discarded, and the bytes after it. -/
  | reserved (op : Byte) (operand : List Byte) (rest : List Byte)
  /-- Fewer bytes than one whole command (R53). -/
  | incomplete
  deriving DecidableEq, Repr

/-- Decode one command: four bytes of command word, then exactly `LEN` operand bytes (R53, R61). Total on any bytes. -/
def decodeCommand : List Byte → Decoded
  | b0 :: b1 :: b2 :: b3 :: body =>
    let cmd := wordOfBytes b0 b1 b2 b3
    if body.length < cmdLen cmd then .incomplete
    else
      match instrOf (cmdOp cmd) (body.take (cmdLen cmd)) with
      | some i => .instr i (body.drop (cmdLen cmd))
      | none => .reserved (cmdOp cmd) (body.take (cmdLen cmd)) (body.drop (cmdLen cmd))
  | _ => .incomplete

/-! ## The wire frame -/

/-- The header word is recognised as a frame's: `(H & 0xFF000000) == (DELIM << 24)` (R48). -/
def isFrameHeader (delim : Byte) (h : Word) : Bool :=
  (h &&& 0xFF000000#32) == (delim.zeroExtend 32 <<< 24)

/-- `tag = H[23:16]` (R38, R48). -/
def headerTag (h : Word) : Byte := h.extractLsb' 16 8

/-- `size = H[15:0]` (R38, R48). -/
def headerSize (h : Word) : BitVec 16 := h.extractLsb' 0 16

/-- Decode one whole frame from the front of the wire bytes, through the word view of its header (R48, R49); `none`
where the first byte is not the delimiter or the frame is not yet complete. -/
def decodeFrame (delim : Byte) : List Byte → Option (Instr × List Byte)
  | b0 :: b1 :: b2 :: b3 :: body =>
    let h := wordOfBytes b0 b1 b2 b3
    if isFrameHeader delim h && decide ((headerSize h).toNat ≤ body.length) then
      some (.frame (headerTag h) (body.take (headerSize h).toNat), body.drop (headerSize h).toNat)
    else none
  | _ => none

/-! ## The encoder -/

/-- The wire bytes of a frame: delimiter, tag, size high byte, size low byte, payload (R47, R64). -/
def encodeFrame (delim tag : Byte) (payload : List Byte) : List Byte :=
  [delim, tag] ++ bytesOfHalf payload.length ++ payload

/-- The bytes of a command: its word, most significant byte first, then its operand (R37, R53, R54). -/
def encodeCommand (op : Byte) (operand : List Byte) : List Byte :=
  bytesOfWord (cmdWord op operand.length) ++ operand

/-- The bytes of an instruction (R47, R54, R55); `delim` is read by the wire frame alone. -/
def encode (delim : Byte) : Instr → List Byte
  | .write data => encodeCommand 0x01#8 data
  | .next => encodeCommand 0x02#8 []
  | .parse data => encodeCommand 0x03#8 data
  | .status => encodeCommand 0x04#8 []
  | .reset => encodeCommand 0x05#8 []
  | .frame tag payload => encodeFrame delim tag payload

/-! ## The opcode table's words -/

/-- The bytes of an instruction whose first word is `w` and whose other bits are 0, as many as a command word `w`
announces. -/
def tableCommandBytes (w : Word) : List Byte := bytesOfWord w ++ List.replicate (cmdLen w) 0#8

/-- The bytes of a frame whose header word is `w` and whose payload bits are 0, as many as the header announces. -/
def tableFrameBytes (w : Word) : List Byte := bytesOfWord w ++ List.replicate (headerSize w).toNat 0#8

/-- The instruction the decoder reads from a word of the opcode table. The table has two formats, CMD and WIRE_HEADER,
whose words overlap: the CMD rows are tried first, and a word that is no defined command is read as a frame header with the
default delimiter (log entry 9). Every row has one 32-bit word. -/
def decodeTableWord (nbits w : Nat) : Option Instr :=
  if 32 < nbits then none
  else
    match decodeCommand (tableCommandBytes (BitVec.ofNat 32 w)) with
    | .instr i _ => some i
    | .reserved _ _ _ =>
      (decodeFrame Machine.defaultDelim (tableFrameBytes (BitVec.ofNat 32 w))).map Prod.fst
    | .incomplete => none

/-- The bytes the host sends on the command port to have a word of the opcode table run: the command itself, for a frame
the WRITE command that carries exactly it (WRITEF, R64; log entry 9), and any other word as it stands. -/
def tableWordRequest (nbits w : Nat) : List Byte :=
  match decodeTableWord nbits w with
  | some (.frame tag payload) =>
    encode Machine.defaultDelim (.write (encodeFrame Machine.defaultDelim tag payload))
  | some i => encode Machine.defaultDelim i
  | none => tableCommandBytes (BitVec.ofNat 32 w)

end Sys2Proof
end

