-- ==== Sys2Proof/Machine/State.lean ====
section
/-! DEFINITION. The machine's state as plain data, its stops, and the state after reset
(spec/10_state.md, spec/70_reset_and_hazards.md R118). -/

namespace Sys2Proof.Machine

/-- The STATE register's three values (R16). The encoding 0b11 is never held, so it has no constructor. -/
inductive EngineState where
  | empty
  | inProgress
  | failure
  deriving DecidableEq, Repr

/-- A decoded frame (R19). That a payload has at most 65535 bytes is the invariant `Block.FramesLegal`. -/
structure Frame where
  tag : Byte
  payload : List Byte
  deriving DecidableEq, Repr

/-- The whole state of one de-framer: the record BlockState of R15. -/
structure Block where
  /-- The STATE register (R16). -/
  state : EngineState
  /-- The PENDING buffer `P` (R18), first byte first. -/
  pending : List Byte
  /-- The DECODED queue `Q` (R20), head first. -/
  decoded : List Frame
  deriving DecidableEq, Repr

/-- A response (R53): one response word, then any further words, then any bytes (R56, R57). -/
structure Response where
  word : Word
  words : List Word
  bytes : List Byte
  deriving DecidableEq, Repr

/-- One move of the world outside (R6, R117). -/
inductive Event where
  /-- The host sends these bytes on the command port with this number: one command, or several back to back (R53). -/
  | command (port : Nat) (bytes : List Byte)
  /-- Power is lost and comes back: power-on reset (R116, R118). -/
  | powerOn
  deriving DecidableEq, Repr

/-- The machine. `params` is fixed when the block is built (R121) and no step changes it; `blocks` is the architectural
state; `port`, `inbox` and `responses` are the model's own bookkeeping of the host's side (log entries 1, 4, 5, 7). -/
structure State where
  /-- The implementation parameters (R11). -/
  params : Params
  /-- The `N_INSTANCES` de-framers, in the order of their command ports (R7, R114). -/
  blocks : List Block
  /-- The number of the command port whose command is being served. -/
  port : Nat
  /-- The moves of the host not yet served, oldest first. -/
  inbox : List Event
  /-- Every response returned so far with the port it went to, oldest first (R10). -/
  responses : List (Nat × Response)
  deriving DecidableEq, Repr

/-- Why a step stops the machine. -/
inductive Fault where
  /-- Raised by `serve` when the command came on a port that no block sits behind. The spec gives such a port no
  meaning (R7: a command goes to exactly one instance). Safe: the model stops where nothing is said (log entry 7). -/
  | noSuchInstance
  deriving DecidableEq, Repr

/-- Why a step has no meaning to give. -/
inductive Refusal where
  /-- Raised by an arm of `exec` that has no meaning yet; no arm of this model is left so. Safe: the model stops. -/
  | notModelled (mnemonic : String)
  /-- Raised by `step` when the host's move holds fewer bytes than one whole command, which R53 does not let the host
  send. Safe: the model stops where the spec gives no move (log entry 3). -/
  | incompleteCommand
  deriving DecidableEq, Repr

/-- The state `S0` of a just-created instance (R33, R118). -/
def Block.reset : Block := { state := .empty, pending := [], decoded := [] }

/-- The state right after power-on reset of a system with `n` instances built with parameters `p` (R118). -/
def State.powerOn (p : Params) (n : Nat) : State :=
  { params := p, blocks := List.replicate n Block.reset, port := 0, inbox := [], responses := [] }

/-- The machine right after reset: the default parameters (R11) and one instance (log entry 6). -/
def State.reset : State := State.powerOn defaultParams 1

end Sys2Proof.Machine
end

