-- ==== Sys2Proof/Machine/Flags.lean ====
section
/-! DEFINITION. The block has no condition codes (spec/10_state.md R24): what a command reports is a status code and a
response word. This file holds the status codes (spec/30_encoding.md R58), the Error Mapper (spec/40_header_parser.md R70)
and every response form (R56, R57). -/

namespace Sys2Proof.Machine

/-- The status codes of R58 by name; `unknown` and `generic` are two kinds (92 D24). Those R104 lists are never produced. -/
inductive Status where
  | ok
  | framingTooLittleData
  | framingDelimiterMismatch
  | streamMessageCountZero
  | streamFailure
  | streamBytesFull
  | streamBytesEmpty
  | streamMessageTooLong
  | readFailure
  | writeFailure
  | streamClosed
  | streamOutputClosed
  | generic
  | unknown
  deriving DecidableEq, Repr

/-- The code of a status (R58). -/
def statusCode : Status → Byte
  | .ok => 0x00#8
  | .framingTooLittleData => 0x01#8
  | .framingDelimiterMismatch => 0x02#8
  | .streamMessageCountZero => 0x03#8
  | .streamFailure => 0x04#8
  | .streamBytesFull => 0x05#8
  | .streamBytesEmpty => 0x06#8
  | .streamMessageTooLong => 0x07#8
  | .readFailure => 0x08#8
  | .writeFailure => 0x09#8
  | .streamClosed => 0x0A#8
  | .streamOutputClosed => 0x0B#8
  | .generic => 0x0E#8
  | .unknown => 0x0F#8

/-- The Header Parser's errors (R67). -/
inductive HeaderError where
  | tooLittleData
  | delimiterMismatch
  deriving DecidableEq, Repr

/-- The Error Mapper (R70). -/
def mapErr : HeaderError → Status
  | .tooLittleData => .framingTooLittleData
  | .delimiterMismatch => .framingDelimiterMismatch

/-- The encoding of STATE that STATUS reports (R16). -/
def stateCode : EngineState → BitVec 2
  | .empty => 0b00#2
  | .inProgress => 0b01#2
  | .failure => 0b10#2

/-- A response word: `RSP[31:16]`, `RSP[15:8]` and the status `RSP[7:0]` (R56). -/
def rspWord (high : BitVec 16) (mid : Byte) (code : Status) : Word := high ++ mid ++ statusCode code

/-- `ERR(code)`: the status, all other fields zero, nothing after the word (R13, R56). -/
def errResponse (code : Status) : Response := { word := rspWord 0 0 code, words := [], bytes := [] }

/-- The successful response of WRITE and RESET (R57). -/
def okResponse : Response := { word := rspWord 0 0 .ok, words := [], bytes := [] }

/-- The successful response of NEXT: tag, payload length, then the payload bytes (R57). A legal frame's length fits
(R19); log entry 17 says what a longer payload would give. -/
def frameResponse (f : Frame) : Response :=
  { word := rspWord (BitVec.ofNat 16 f.payload.length) f.tag .ok, words := [], bytes := f.payload }

/-- The successful response of PARSE: the metadata's tag and size (R57). -/
def metadataResponse (tag : Byte) (size : BitVec 16) : Response :=
  { word := rspWord size tag .ok, words := [], bytes := [] }

/-- The successful response of STATUS: `RSP[9:8]` the state, `RSP[15:10]` zero, `RSP[31:16]` the queue count saturated at
0xFFFF, then one word with the pending length saturated at 0xFFFFFFFF (R57, R93). -/
def statusResponse (st : EngineState) (queueCount pendingLen : Nat) : Response :=
  { word := rspWord (BitVec.ofNat 16 (min queueCount 0xFFFF)) (0#6 ++ stateCode st) .ok
    words := [BitVec.ofNat 32 (min pendingLen 0xFFFFFFFF)]
    bytes := [] }

/-- `RSP[7:0]`, the status code a response reports (R56). -/
def Response.code (r : Response) : Byte := r.word.extractLsb' 0 8

/-- `RSP[15:8]` (R57): the tag, in a successful response of NEXT or PARSE. -/
def Response.tagField (r : Response) : Byte := r.word.extractLsb' 8 8

end Sys2Proof.Machine
end

