-- ==== Sys2Proof/Machine/Operands.lean ====
section
/-! DEFINITION. The operands: the Header Parser (spec/40_header_parser.md R67), the sizes and slices WRITE takes of its
buffer (spec/41_write.md R73), and the views of the stores (spec/10_state.md R25). -/

namespace Sys2Proof.Machine

/-- What a header announces (R21): used during one step, never stored. -/
structure FrameMetadata where
  tag : Byte
  size : BitVec 16
  deriving DecidableEq, Repr

/-- The Header Parser (R67): the length check comes before the delimiter check (R68), and only the first four bytes are
read (R69). -/
def parseHeader (delim : Byte) (buf : List Byte) : Except HeaderError FrameMetadata :=
  match buf with
  | b0 :: b1 :: b2 :: b3 :: _ =>
    if b0 = delim then .ok { tag := b1, size := halfOfBytes b2 b3 } else .error .delimiterMismatch
  | _ => .error .tooLittleData

/-- `need = HDR_SIZE + size`, the length of the whole frame (R49). -/
def FrameMetadata.need (m : FrameMetadata) : Nat := Config.hdrSize + m.size.toNat

/-- The frame at the front of a buffer: the tag, and a copy of `buf[HDR_SIZE .. need)` (R73, R88, R89). -/
def FrameMetadata.frameOf (m : FrameMetadata) (buf : List Byte) : Frame :=
  { tag := m.tag, payload := (buf.take m.need).drop Config.hdrSize }

/-- `QPush(Q, f)`: append at the tail (R13, R20). -/
def qPush (q : List Frame) (f : Frame) : List Frame := q ++ [f]

/-- The view `PENDING_LEN` (R25). -/
def Block.pendingLen (b : Block) : Nat := b.pending.length

/-- The view `QUEUE_COUNT` (R25). -/
def Block.queueCount (b : Block) : Nat := b.decoded.length

end Sys2Proof.Machine
end

