-- ==== Sys2Proof/Machine/Ops.lean ====
section
/-! DEFINITION. The operations every meaning is built from: reporting an error, the capacity check, serving a command on its
instance, taking a command from the inbox, power-on reset. The block has no memory to address (spec/20_memory.md R34) and no
trap to enter or return from (spec/60_exceptions.md R106, R107): an error is a returned status (R97). -/

namespace Sys2Proof.Machine

/-- `raise E`: the error status and no state change (spec/00_scope.md R13, R97). -/
def raise (b : Block) (e : Status) : Block × Response := (b, errResponse e)

/-- A candidate next state breaks a cap: `len(P) > PENDING_CAP` or `len(Q) > QUEUE_DEPTH` in `Enforced` mode (R85). -/
def overCaps (p : Params) (b : Block) : Bool :=
  p.capacityMode == .enforced &&
    (decide (p.pendingCap < b.pending.length) || decide (p.queueDepth < b.decoded.length))

/-- `cap_check(S, S', rsp)` (R85): a candidate over a cap is dropped whole and `StreamBytesFull` replaces the status. -/
def capCheck (p : Params) (old new : Block) (rsp : Response) : Block × Response :=
  if overCaps p new then raise old .streamBytesFull else (new, rsp)

/-- The command being served leaves its instance in `b` and returns `r`: that instance and the observation change, nothing
else (R7, R8, R26). -/
def State.answer (s : State) (b : Block) (r : Response) : State :=
  { s with blocks := s.blocks.set s.port b, responses := s.responses ++ [(s.port, r)] }

/-- Run a command's rule on the one instance behind the port it came on (R7, R8). -/
def serve (s : State) (rule : Params → Block → Block × Response) : Host.Outcome State Fault Refusal :=
  match s.blocks[s.port]? with
  | some b => .next (s.answer (rule s.params b).1 (rule s.params b).2)
  | none => .fault .noSuchInstance

/-- The bytes after a command stay at the head of the host's moves; a move with no bytes left is done. -/
def requeue (port : Nat) (rest : List Byte) (more : List Event) : List Event :=
  match rest with
  | [] => more
  | _ :: _ => .command port rest :: more

/-- The state in which the command just read from `port` is run: the port is selected, and the inbox holds what is left. -/
def takeCommand (s : State) (port : Nat) (rest : List Byte) (more : List Event) : State :=
  { s with port := port, inbox := requeue port rest more }

/-- The host has sent nothing: nothing happens (R10, log entry 2). -/
def idle (s : State) : Host.Outcome State Fault Refusal := .next s

/-- The host's move does not hold one whole command (R53, log entry 3). -/
def incomplete (_s : State) : Host.Outcome State Fault Refusal := .refused .incompleteCommand

/-- Power-on reset: every instance in its reset state, whatever it held (R116, R118, R120; log entry 10). -/
def powerCycle (s : State) (more : List Event) : Host.Outcome State Fault Refusal :=
  .next { s with blocks := s.blocks.map (fun _ => Block.reset), inbox := more }

end Sys2Proof.Machine
end

