-- ==== Sys2Proof/Machine/Control.lean ====
section
/-! DEFINITION. STATUS, RESET and the reserved encodings (spec/42_retrieval_and_control.md R93 to R95). -/

namespace Sys2Proof.Machine

/-- STATUS on one instance (R93): pure, in every STATE. -/
def statusBlock (_p : Params) (b : Block) : Block × Response :=
  (b, statusResponse b.state b.queueCount b.pendingLen)

/-- STATUS. -/
def execStatus (s : State) : Host.Outcome State Fault Refusal := serve s statusBlock

/-- RESET on one instance (R94, R119): the just-created state from every state. -/
def resetBlock (_p : Params) (_b : Block) : Block × Response := (Block.reset, okResponse)

/-- RESET. -/
def execReset (s : State) : Host.Outcome State Fault Refusal := serve s resetBlock

/-- A reserved command on one instance (R59, R95): `Unknown`, whatever the state (R105). -/
def reservedBlock (_p : Params) (b : Block) : Block × Response := raise b .unknown

/-- A reserved command: its opcode and operand bytes are discarded. -/
def execReserved (_op : Byte) (_operand : List Byte) (s : State) : Host.Outcome State Fault Refusal :=
  serve s reservedBlock

end Sys2Proof.Machine
end

