-- ==== Sys2Proof/Machine/Parse.lean ====
section
/-! DEFINITION. PARSE (spec/40_header_parser.md R72). -/

namespace Sys2Proof.Machine

/-- PARSE on one instance (R72): the Header Parser on the operand alone; PENDING and STATE are not read. -/
def parseBlock (data : List Byte) (p : Params) (b : Block) : Block × Response :=
  match parseHeader p.delim data with
  | .ok m => (b, metadataResponse m.tag m.size)
  | .error e => raise b (mapErr e)

/-- PARSE. -/
def execParse (data : List Byte) (s : State) : Host.Outcome State Fault Refusal :=
  serve s (parseBlock data)

end Sys2Proof.Machine
end

