-- ==== Sys2Proof/Machine/Retrieval.lean ====
section
/-! DEFINITION. NEXT (spec/42_retrieval_and_control.md R91, R92). -/

namespace Sys2Proof.Machine

/-- NEXT on one instance (R91): in `Failure` nothing is popped (R92); an empty queue reports `StreamMessageCountZero`;
otherwise the head leaves the queue. -/
def nextBlock (_p : Params) (b : Block) : Block × Response :=
  if b.state = .failure then raise b .streamFailure
  else
    match b.decoded with
    | [] => raise b .streamMessageCountZero
    | f :: q => ({ b with decoded := q }, frameResponse f)

/-- NEXT. -/
def execNext (s : State) : Host.Outcome State Fault Refusal := serve s nextBlock

end Sys2Proof.Machine
end

