-- ==== Sys2Proof/Machine/Write.lean ====
section
/-! DEFINITION. WRITE, the framing state machine (spec/41_write.md R73 to R85), and the wire frame (R64). -/

namespace Sys2Proof.Machine

/-- The short-input guard's effect (R75): the bytes are kept and no header is parsed. -/
def writeShort (data : List Byte) (p : Params) (b : Block) : Block × Response :=
  capCheck p b { b with state := .inProgress, pending := b.pending ++ data } okResponse

/-- The Empty path (R76): the header is parsed on `data` alone. A header error drops the chunk (R77); otherwise Equal (R78),
Less (R79) or Greater (R80). -/
def writeEmpty (data : List Byte) (p : Params) (b : Block) : Block × Response :=
  match parseHeader p.delim data with
  | .error e => raise b (mapErr e)
  | .ok m =>
    if data.length = m.need then
      capCheck p b { b with state := .empty, decoded := qPush b.decoded (m.frameOf data) } okResponse
    else if data.length < m.need then
      capCheck p b { b with state := .inProgress, pending := b.pending ++ data } okResponse
    else
      capCheck p b
        { state := .inProgress, pending := data.drop m.need, decoded := qPush b.decoded (m.frameOf data) } okResponse

/-- The InProgress path (R81) on the combined buffer `buf = P ++ data`: a mismatch keeps the appended bytes; otherwise
Equal (R82), Less (R83) or Greater (R84). -/
def writeInProgress (buf : List Byte) (p : Params) (b : Block) : Block × Response :=
  match parseHeader p.delim buf with
  | .error e =>
    capCheck p b { b with state := .inProgress, pending := buf } (errResponse (mapErr e))
  | .ok m =>
    if buf.length = m.need then
      capCheck p b { state := .empty, pending := [], decoded := qPush b.decoded (m.frameOf buf) } okResponse
    else if buf.length < m.need then
      capCheck p b { b with state := .inProgress, pending := buf } okResponse
    else
      capCheck p b
        { state := .inProgress, pending := buf.drop m.need, decoded := qPush b.decoded (m.frameOf buf) } okResponse

/-- WRITE on one instance (R73). `Failure` is checked before the short-input guard (R74, 90_conflicts.md C1). -/
def writeBlock (data : List Byte) (p : Params) (b : Block) : Block × Response :=
  match b.state with
  | .failure => raise b .streamFailure
  | .empty =>
    if b.pending.length + data.length < Config.hdrSize then writeShort data p b else writeEmpty data p b
  | .inProgress =>
    if b.pending.length + data.length < Config.hdrSize then writeShort data p b
    else writeInProgress (b.pending ++ data) p b

/-- WRITE. -/
def execWrite (data : List Byte) (s : State) : Host.Outcome State Fault Refusal :=
  serve s (writeBlock data)

/-- FRAME on one instance: the WRITE that carries exactly this frame's wire bytes, WRITEF of R64 (log entry 8). -/
def frameBlock (tag : Byte) (payload : List Byte) (p : Params) (b : Block) : Block × Response :=
  writeBlock (encodeFrame p.delim tag payload) p b

/-- FRAME. -/
def execFrame (tag : Byte) (payload : List Byte) (s : State) : Host.Outcome State Fault Refusal :=
  serve s (frameBlock tag payload)

end Sys2Proof.Machine
end

