-- ==== Sys2Proof/Machine/Dispatch.lean ====
section
/-! DEFINITION. One arm per instruction; each arm calls that instruction's meaning. -/

namespace Sys2Proof.Machine

def exec (i : Instr) (s : State) : Host.Outcome State Fault Refusal :=
  match i with
  | .write data => Sys2Proof.Machine.execWrite data s
  | .next => Sys2Proof.Machine.execNext s
  | .parse data => Sys2Proof.Machine.execParse data s
  | .status => Sys2Proof.Machine.execStatus s
  | .reset => Sys2Proof.Machine.execReset s
  | .frame tag payload => Sys2Proof.Machine.execFrame tag payload s

end Sys2Proof.Machine
end

