-- ==== Sys2Proof/Machine/Step.lean ====
section
/-! DEFINITION. One step of the machine: it serves the host's oldest move (spec/00_scope.md R8, spec/20_memory.md R43). -/

namespace Sys2Proof.Machine

/-- One step. With no move of the host nothing happens; a power-on event resets every instance; a command is decoded from
the bytes the host sent, and runs on the instance behind its port. -/
def step (s : State) : Host.Outcome State Fault Refusal :=
  match s.inbox with
  | [] => idle s
  | .powerOn :: more => powerCycle s more
  | .command port bytes :: more =>
    match decodeCommand bytes with
    | .instr i rest => exec i (takeCommand s port rest more)
    | .reserved op operand rest => execReserved op operand (takeCommand s port rest more)
    | .incomplete => incomplete s

/-- `s` with the instruction of an opcode table's word as the host's oldest move, on port 0 (log entries 1 and 9). -/
def State.withFetchWord (s : State) (nbits w : Nat) : State :=
  { s with inbox := .command 0 (tableWordRequest nbits w) :: s.inbox }

end Sys2Proof.Machine
end

