-- ==== Sys2Proof/Machine/Run.lean ====
section
/-! DEFINITION. The block's own step function and its runs (spec/00_scope.md R8, R10), sequences of instructions on the
machine, and the bytes and length of a response (spec/20_memory.md R37, spec/30_encoding.md R61). -/

namespace Sys2Proof.Machine

/-- A command as the port takes it: a defined one, or a reserved encoding (R53, R59). -/
inductive Command where
  | instr (i : Instr)
  | reserved (op : Byte) (operand : List Byte)
  deriving DecidableEq, Repr

/-- What an instruction does to one instance, and its response. -/
def instrBlock : Instr → Params → Block → Block × Response
  | .write data => writeBlock data
  | .next => nextBlock
  | .parse data => parseBlock data
  | .status => statusBlock
  | .reset => resetBlock
  | .frame tag payload => frameBlock tag payload

/-- `step : Params -> BlockState -> Command -> (BlockState, Response)` of R8. -/
def blockStep (p : Params) (b : Block) : Command → Block × Response
  | .instr i => instrBlock i p b
  | .reserved _ _ => reservedBlock p b

/-- A run's observation (R10): the final state and the responses in order. -/
def runBlock (p : Params) : Block → List Command → Block × List Response
  | b, [] => (b, [])
  | b, c :: cs =>
    ((runBlock p (blockStep p b c).1 cs).1, (blockStep p b c).2 :: (runBlock p (blockStep p b c).1 cs).2)

/-- The instructions one after the other on the machine, all on the selected port, up to the first stop. -/
def execAll : List Instr → State → Host.Outcome State Fault Refusal
  | [], s => .next s
  | i :: is, s =>
    match exec i s with
    | .next t => execAll is t
    | .fault r => .fault r
    | .refused r => .refused r

/-- The bytes of a response on a byte-wide port: words most significant byte first, then the bytes in order (R37). -/
def Response.octets (r : Response) : List Byte :=
  bytesOfWord r.word ++ (r.words.map bytesOfWord).flatten ++ r.bytes

/-- How many bytes the host takes for the response to a command, told from its first word (R61). -/
def responseLength (i : Instr) (w : Word) : Nat :=
  match i with
  | .next => if w.extractLsb' 0 8 = 0x00#8 then 4 + (w.extractLsb' 16 16).toNat else 4
  | .status => if w.extractLsb' 0 8 = 0x00#8 then 8 else 4
  | .write _ => 4
  | .parse _ => 4
  | .reset => 4
  | .frame _ _ => 4

end Sys2Proof.Machine
end

