-- ==== Sys2Proof/Machine/Assembler.lean ====
section
/-! DEFINITION. The command notation (spec/30_encoding.md R62), with the pseudo-instructions PUMP (R63) and WRITEF (R64),
and the notation of responses. Texts are lists of characters. What the rule leaves open is in log entry 15. -/

namespace Sys2Proof.Machine

/-- PUMP (R63): WRITE with an empty chunk. -/
def pump : Instr := .write []

/-- WRITEF (R64): one WRITE carrying exactly one whole frame. -/
def writef (delim tag : Byte) (payload : List Byte) : Instr := .write (encodeFrame delim tag payload)

/-- A hexadecimal digit, in capitals. -/
def hexDigit (n : Nat) : Char :=
  ['0', '1', '2', '3', '4', '5', '6', '7', '8', '9', 'A', 'B', 'C', 'D', 'E', 'F'].getD n '0'

/-- The value of a hexadecimal digit, capital or small. -/
def hexValue (c : Char) : Option Nat :=
  if '0' ≤ c ∧ c ≤ '9' then some (c.toNat - 48)
  else if 'A' ≤ c ∧ c ≤ 'F' then some (c.toNat - 55)
  else if 'a' ≤ c ∧ c ≤ 'f' then some (c.toNat - 87)
  else none

/-- A byte as two hex digits without `0x`. -/
def hexByte (b : Byte) : List Char := [hexDigit (b.toNat / 16), hexDigit (b.toNat % 16)]

/-- Two hex digits as a byte. -/
def byteOfHex : List Char → Option Byte
  | [h, l] =>
    match hexValue h, hexValue l with
    | some a, some b => some (BitVec.ofNat 8 (16 * a + b))
    | _, _ => none
  | _ => none

/-- All tokens as bytes. -/
def bytesOfHex : List (List Char) → Option (List Byte)
  | [] => some []
  | t :: ts =>
    match byteOfHex t, bytesOfHex ts with
    | some b, some bs => some (b :: bs)
    | _, _ => none

/-- The text before the comment sign. -/
def stripComment : List Char → List Char
  | [] => []
  | c :: cs => if c = ';' then [] else c :: stripComment cs

/-- Add a character to the first word of a list of words. -/
def consChar (c : Char) : List (List Char) → List (List Char)
  | [] => [[c]]
  | w :: ws => (c :: w) :: ws

/-- The words of a text, split at every single space; two spaces in a row leave an empty word between them. -/
def splitSpaces : List Char → List (List Char)
  | [] => [[]]
  | c :: cs => if c = ' ' then [] :: splitSpaces cs else consChar c (splitSpaces cs)

/-- The non-empty words of one line of assembly. -/
def tokens (line : List Char) : List (List Char) :=
  (splitSpaces (stripComment line)).filter (fun w => !w.isEmpty)

/-- The tag of WRITEF: two hex digits, with a comma where payload bytes follow. -/
def tagOfHex : List Char → Option Byte
  | [h, l, ','] => byteOfHex [h, l]
  | w => byteOfHex w

/-- Assemble one line (R62 to R64). `delim` is the delimiter WRITEF writes. -/
def assemble (delim : Byte) (line : List Char) : Option Instr :=
  match tokens line with
  | ['W', 'R', 'I', 'T', 'E'] :: args => (bytesOfHex args).map Instr.write
  | ['P', 'A', 'R', 'S', 'E'] :: args => (bytesOfHex args).map Instr.parse
  | [['N', 'E', 'X', 'T']] => some .next
  | [['S', 'T', 'A', 'T', 'U', 'S']] => some .status
  | [['R', 'E', 'S', 'E', 'T']] => some .reset
  | [['P', 'U', 'M', 'P']] => some pump
  | ['W', 'R', 'I', 'T', 'E', 'F'] :: tag :: args =>
    match tagOfHex tag, bytesOfHex args with
    | some t, some bs => if bs.length ≤ Config.maxPayload then some (writef delim t bs) else none
    | _, _ => none
  | _ => none

/-- The bytes of an operand, each after one space. -/
def operandText : List Byte → List Char
  | [] => []
  | b :: bs => ' ' :: (hexByte b ++ operandText bs)

/-- An instruction in the notation of R62; a frame is written as the WRITEF that carries it. -/
def assemblyText : Instr → List Char
  | .write data => ['W', 'R', 'I', 'T', 'E'] ++ operandText data
  | .parse data => ['P', 'A', 'R', 'S', 'E'] ++ operandText data
  | .next => ['N', 'E', 'X', 'T']
  | .status => ['S', 'T', 'A', 'T', 'U', 'S']
  | .reset => ['R', 'E', 'S', 'E', 'T']
  | .frame tag payload =>
    ['W', 'R', 'I', 'T', 'E', 'F', ' '] ++ hexByte tag ++ (if payload = [] then [] else [',']) ++ operandText payload

/-- The name of a status code (R58); the unassigned codes have none. -/
def statusName (code : Byte) : String :=
  match code.toNat with
  | 0 => "OK"
  | 1 => "FramingTooLittleData"
  | 2 => "FramingDelimiterMismatch"
  | 3 => "StreamMessageCountZero"
  | 4 => "StreamFailure"
  | 5 => "StreamBytesFull"
  | 6 => "StreamBytesEmpty"
  | 7 => "StreamMessageTooLong"
  | 8 => "ReadFailure"
  | 9 => "WriteFailure"
  | 10 => "StreamClosed"
  | 11 => "StreamOutputClosed"
  | 14 => "Generic"
  | 15 => "Unknown"
  | _ => "unassigned"

/-- The name of the state a STATUS response encodes (R16). -/
def stateName (code : Nat) : String :=
  match code with
  | 0 => "Empty"
  | 1 => "InProgress"
  | 2 => "Failure"
  | _ => "none"

/-- A response in the notation of R62, given the command it answers. -/
def responseText (i : Instr) (r : Response) : String :=
  if r.code = 0x00#8 then
    match i with
    | .write _ => "-> OK"
    | .reset => "-> OK"
    | .frame _ _ => "-> OK"
    | .next =>
      "-> OK tag=" ++ String.ofList (hexByte r.tagField) ++ " payload=["
        ++ String.ofList ((operandText r.bytes).drop 1) ++ "]"
    | .parse _ =>
      "-> OK tag=" ++ String.ofList (hexByte r.tagField) ++ " size=" ++ toString (r.word.extractLsb' 16 16).toNat
    | .status =>
      "-> OK state=" ++ stateName (r.word.extractLsb' 8 2).toNat ++ " q=" ++ toString (r.word.extractLsb' 16 16).toNat
        ++ " p=" ++ toString ((r.words.headD 0#32).toNat)
  else "-> " ++ statusName r.code

end Sys2Proof.Machine
end

