-- ==== Sys2Proof/Machine/Tags.lean ====
section
/-! DEFINITION. The informative names of tag bytes (spec/30_encoding.md R50, R51). Host-side functions: no rule of the block
calls them (92 D29). -/

namespace Sys2Proof.Machine

/-- The tag kinds of R50. `reset` is an ordinary tag; it does not reset the block. -/
inductive TagKind where
  | genericMessage
  | singleMessage
  | multiMessage
  | control
  | hello
  | goodbye
  | ping
  | pong
  | reset
  | undefined
  deriving DecidableEq, Repr

/-- `TagName : byte -> TagKind` (R50). -/
def tagName (b : Byte) : TagKind :=
  match b.toNat with
  | 0 => .genericMessage
  | 1 => .singleMessage
  | 2 => .multiMessage
  | 3 => .control
  | 4 => .hello
  | 5 => .goodbye
  | 6 => .ping
  | 7 => .pong
  | 8 => .reset
  | _ => .undefined

/-- `TagByte : TagKind -> byte` (R51); 0xFF is the sentinel for `undefined`. -/
def tagByte : TagKind → Byte
  | .genericMessage => 0x00#8
  | .singleMessage => 0x01#8
  | .multiMessage => 0x02#8
  | .control => 0x03#8
  | .hello => 0x04#8
  | .goodbye => 0x05#8
  | .ping => 0x06#8
  | .pong => 0x07#8
  | .reset => 0x08#8
  | .undefined => 0xFF#8

end Sys2Proof.Machine
end

