-- ==== Sys2Proof/Safety.lean ====
section
/-! DEFINITION. The launch premises of spec/70_reset_and_hazards.md R133, and the machine's invariant. -/

namespace Sys2Proof.Machine

/-- `AtReset(S)` (R133). -/
abbrev Block.AtReset (b : Block) : Prop := b = Block.reset

/-- `NotFailed(S)` (R133). -/
abbrev Block.NotFailed (b : Block) : Prop := b.state ≠ .failure

/-- `EmptyClean(S)` (R27, R133): Empty implies that nothing is pending. -/
abbrev Block.EmptyClean (b : Block) : Prop := b.state = .empty → b.pending = []

/-- `WithinCaps(S)` (R29, R133). -/
abbrev Block.WithinCaps (p : Params) (b : Block) : Prop :=
  p.capacityMode = .enforced → b.pending.length ≤ p.pendingCap ∧ b.decoded.length ≤ p.queueDepth

/-- Every queued frame is legal: at most 65535 payload bytes (R19). -/
abbrev Block.FramesLegal (b : Block) : Prop := ∀ f ∈ b.decoded, f.payload.length ≤ Config.maxPayload

/-- `Reachable(S)` (R133): some finite command sequence from the reset state gives it. -/
def Block.Reachable (p : Params) (b : Block) : Prop := ∃ cs : List Command, (runBlock p Block.reset cs).1 = b

/-- What every reachable block meets. -/
abbrev Block.Good (p : Params) (b : Block) : Prop :=
  b.NotFailed ∧ b.EmptyClean ∧ b.WithinCaps p ∧ b.FramesLegal

/-- The machine's invariant: legal parameters (R11), at least one instance (R7), every instance good. -/
abbrev State.Inv (s : State) : Prop :=
  s.params.Valid ∧ 1 ≤ s.blocks.length ∧ ∀ b ∈ s.blocks, b.Good s.params

end Sys2Proof.Machine
end

