-- ==== Sys2Proof/Certificates/Slice0/Obligations.lean ====
section
/-! DEFINITION. The statements for the provers. `Served`, `Answers` and the functions before the statements only write
down what the statements share; each next state is written out field by field. -/

namespace Sys2Proof.Cert

open Sys2Proof.Machine

/-- The block behind the selected command port is `b`. -/
def Served (s : State) (b : Block) : Prop := s.blocks[s.port]? = some b

/-- The instruction completes: the served instance becomes `b`, the response is `r`, and NOTHING ELSE changes: not the
parameters, not another instance, not the selected port, not the host's moves, not an earlier response. -/
def Answers (i : Instr) (s : State) (b : Block) (r : Response) : Prop :=
  exec i s = .next
    { params := s.params, blocks := s.blocks.set s.port b, port := s.port, inbox := s.inbox,
      responses := s.responses ++ [(s.port, r)] }

/-- The command word `w` with these operand bytes selects the command `i` (R54, R55). -/
def Selects (w : Word) (operand : List Byte) (i : Instr) : Prop := instrOf (cmdOp w) operand = some i

/-- A response of one word and nothing after it. -/
def oneWord (w : Word) : Response := { word := w, words := [], bytes := [] }

/-- The size a header announces: `hi × 256 + lo`. -/
def sizeOf16 (hi lo : Byte) : Nat := hi.toNat * 256 + lo.toNat

/-- The response to a NEXT that takes `f`: status 0, the tag in bits 15..8, the payload length in bits 31..16, then the
payload. -/
def nextResponse (f : Frame) : Response :=
  { word := BitVec.ofNat 32 (f.payload.length * 65536 + f.tag.toNat * 256), words := [], bytes := f.payload }

/-- The wire bytes of a frame: delimiter, tag, length big-endian, payload. -/
def wire (delim : Byte) (f : Frame) : List Byte :=
  delim :: f.tag :: BitVec.ofNat 8 (f.payload.length / 256) :: BitVec.ofNat 8 f.payload.length :: f.payload

/-- The bytes of the stream a block still holds: its queued frames in order, then what is pending. -/
def held (delim : Byte) (b : Block) : List Byte := b.decoded.flatMap (wire delim) ++ b.pending

/-- The frames the host took: the tag and payload of every NEXT that answered with status 0, in order. -/
def taken : List (Instr × Response) → List Frame
  | [] => []
  | (.next, r) :: rest =>
    if r.word.extractLsb' 0 8 = 0x00#8 then { tag := r.word.extractLsb' 8 8, payload := r.bytes } :: taken rest
    else taken rest
  | _ :: rest => taken rest

/-- The bytes the block took: the chunk of every WRITE that answered with status 0, in order. -/
def fed : List (Instr × Response) → List Byte
  | [] => []
  | (.write data, r) :: rest => if r.word.extractLsb' 0 8 = 0x00#8 then data ++ fed rest else fed rest
  | _ :: rest => fed rest

/-- Every WRITE was taken (`OK`) or turned away whole (`StreamBytesFull`). -/
def NoBadHeader (run : List (Instr × Response)) : Prop :=
  ∀ data r, (Instr.write data, r) ∈ run → r.word = 0x00000000#32 ∨ r.word = 0x00000005#32

/-- The branches of WRITE that change no state, to which the capacity check does not apply (R74, R77, R85): Failure, and a
header error on the Empty path. -/
abbrev noCheck (delim : Byte) (b : Block) (data : List Byte) : Prop :=
  b.state = .failure ∨
    (b.state = .empty ∧ 4 ≤ b.pending.length + data.length ∧ (data.length < 4 ∨ data.head? ≠ some delim))

/-- The chunks among WRITEs that a desynchronised block kept: those answered with FramingDelimiterMismatch. -/
def keptChunks : List (List Byte × Response) → List Byte
  | [] => []
  | (chunk, r) :: rest => if r = oneWord 0x00000002 then chunk ++ keptChunks rest else keptChunks rest

/-- The transitions of STATE that R17 gives WRITE. -/
def writeTransitions : List (EngineState × EngineState) :=
  [(.empty, .empty), (.empty, .inProgress), (.inProgress, .inProgress), (.inProgress, .empty), (.failure, .failure)]

end Sys2Proof.Cert

open Sys2Proof Sys2Proof.Machine Sys2Proof.Cert

/-! ## Encodings -/

/-- The example words of R66 and a frame of R47, written out, decode to the instructions they stand for. -/
def Obligations.ExampleWordsDecode : Prop :=
  decodeCommand [0x00, 0x00, 0x05, 0x01, 0x00, 0x00, 0x00, 0x01, 0xAB] = .instr (.write [0x00, 0x00, 0x00, 0x01, 0xAB]) [] ∧
  decodeCommand [0x00, 0x00, 0x00, 0x01] = .instr (.write []) [] ∧
  decodeCommand [0x00, 0x00, 0x00, 0x02] = .instr .next [] ∧
  decodeCommand [0x00, 0x00, 0x04, 0x03, 0x00, 0x07, 0x01, 0x00] = .instr (.parse [0x00, 0x07, 0x01, 0x00]) [] ∧
  decodeCommand [0x00, 0x00, 0x00, 0x04] = .instr .status [] ∧
  decodeCommand [0x00, 0x00, 0x00, 0x05] = .instr .reset [] ∧
  decodeCommand [0x00, 0x00, 0x00, 0x06] = .reserved 0x06 [] [] ∧
  decodeCommand [0x00, 0x00, 0x01, 0x02, 0x77] = .reserved 0x02 [0x77] [] ∧
  decodeFrame 0x00 [0x00, 0x07, 0x00, 0x02, 0x11, 0x22, 0x33, 0x44] = some (.frame 0x07 [0x11, 0x22], [0x33, 0x44])

/-- Decoding the encoding of a well-formed command gives the command back and leaves the bytes after it (R53 to R55). -/
def Obligations.CommandDecodesFromItsEncoding : Prop :=
  ∀ (delim : Byte) (i : Instr) (rest : List Byte), i.isCommand = true → i.wellFormed = true →
    decodeCommand (encode delim i ++ rest) = .instr i rest

/-- The command word and the opcode map (R54, R55): OP is the fourth byte, LEN the first three as one number, LEN operand
bytes follow, and OP says which command it is; every other encoding is reserved (R59). -/
def Obligations.CommandWordSelectsTheCommand : Prop :=
  ∀ (b0 b1 b2 op : Byte) (body : List Byte),
    decodeCommand (b0 :: b1 :: b2 :: op :: body) =
      (let len := b0.toNat * 65536 + b1.toNat * 256 + b2.toNat
       if body.length < len then .incomplete
       else if op = 0x01 then .instr (.write (body.take len)) (body.drop len)
       else if op = 0x03 then .instr (.parse (body.take len)) (body.drop len)
       else if op = 0x02 ∧ len = 0 then .instr .next body
       else if op = 0x04 ∧ len = 0 then .instr .status body
       else if op = 0x05 ∧ len = 0 then .instr .reset body
       else .reserved op (body.take len) (body.drop len))

/-- The other direction: bytes that decode to a command ARE its encoding, so no bit is dropped and every command has one
encoding (R53 to R55, R59). -/
def Obligations.DecodedBytesAreTheEncoding : Prop :=
  ∀ (delim : Byte) (bytes : List Byte) (i : Instr) (rest : List Byte), decodeCommand bytes = .instr i rest →
    i.isCommand = true ∧ i.wellFormed = true ∧ bytes = encode delim i ++ rest

/-- A frame decodes from its wire bytes, whatever follows it, and the next frame starts right after it (R47, R49). -/
def Obligations.FrameDecodesFromItsWireBytes : Prop :=
  ∀ (delim tag hi lo : Byte) (payload rest : List Byte), payload.length = sizeOf16 hi lo →
    decodeFrame delim (delim :: tag :: hi :: lo :: payload ++ rest) = some (.frame tag payload, rest) ∧
    encode delim (.frame tag payload) = delim :: tag :: hi :: lo :: payload

/-- The byte view and the word view of a header agree (R38, R48), and fewer than four bytes are no header. -/
def Obligations.HeaderViewsAgree : Prop :=
  (∀ (delim b0 b1 b2 b3 : Byte) (rest : List Byte),
    (wordOfBytes b0 b1 b2 b3).toNat = b0.toNat * 2 ^ 24 + b1.toNat * 2 ^ 16 + b2.toNat * 2 ^ 8 + b3.toNat ∧
    (wordOfBytes b0 b1 b2 b3).extractLsb' 24 8 = b0 ∧
    headerTag (wordOfBytes b0 b1 b2 b3) = b1 ∧
    (headerSize (wordOfBytes b0 b1 b2 b3)).toNat = sizeOf16 b2 b3 ∧
    ((wordOfBytes b0 b1 b2 b3 &&& 0xFF000000#32).toNat = delim.toNat * 2 ^ 24 ↔ b0 = delim) ∧
    (isFrameHeader delim (wordOfBytes b0 b1 b2 b3) = true ↔ b0 = delim) ∧
    parseHeader delim (b0 :: b1 :: b2 :: b3 :: rest) =
      (if isFrameHeader delim (wordOfBytes b0 b1 b2 b3) = true then
        .ok { tag := headerTag (wordOfBytes b0 b1 b2 b3), size := headerSize (wordOfBytes b0 b1 b2 b3) }
      else .error .delimiterMismatch)) ∧
  (∀ (delim : Byte) (buf : List Byte), buf.length < 4 → parseHeader delim buf = .error .tooLittleData)

/-- TagName and TagByte (R50, R51). -/
def Obligations.TagNamesRoundTrip : Prop :=
  [TagKind.genericMessage, .singleMessage, .multiMessage, .control, .hello, .goodbye, .ping, .pong, .reset,
    .undefined].map tagByte = [0x00, 0x01, 0x02, 0x03, 0x04, 0x05, 0x06, 0x07, 0x08, 0xFF] ∧
  (∀ k : TagKind, tagName (tagByte k) = k) ∧
  (∀ b : Byte, tagByte (tagName b) = b ↔ b.toNat ≤ 8 ∨ b = 0xFF#8) ∧
  tagName 0x09 = .undefined

/-- A command written in the notation of R62 assembles back to itself, and a frame's WRITEF (R64) to the WRITE that
carries its wire bytes. What texts are accepted beyond these is the model's choice (log entry 15). -/
def Obligations.AssemblyTextRoundTrips : Prop :=
  (∀ (delim : Byte) (i : Instr), i.isCommand = true → assemble delim (assemblyText i) = some i) ∧
  (∀ (delim tag : Byte) (payload : List Byte), payload.length ≤ 65535 →
    assemble delim (assemblyText (.frame tag payload)) = some (.write (wire delim ⟨tag, payload⟩)))

/-! ## PARSE -/

/-- PARSE (R67, R72): its command words, and what it does: it always completes, changes no instance, and reports what the
first four operand bytes say. -/
def Obligations.ParseReportsTheHeader : Prop :=
  (∀ (w : Word) (operand : List Byte), operand.length = cmdLen w →
    (Selects w operand (.parse operand) ↔ w &&& 0x000000FF#32 = 0x00000003#32)) ∧
  ∀ (s : State) (b : Block) (data : List Byte), Served s b →
    (data.length < 4 → Answers (.parse data) s b (oneWord 0x00000001)) ∧
    (∀ (b0 tag hi lo : Byte) (more : List Byte), data = b0 :: tag :: hi :: lo :: more →
      (b0 ≠ s.params.delim → Answers (.parse data) s b (oneWord 0x00000002)) ∧
      (b0 = s.params.delim →
        Answers (.parse data) s b (oneWord (BitVec.ofNat 32 (sizeOf16 hi lo * 65536 + tag.toNat * 256)))))

/-! ## WRITE -/

/-- In Failure WRITE takes no byte, however short the chunk (R74). -/
def Obligations.WriteInFailureIsRejected : Prop :=
  ∀ (s : State) (b : Block) (data : List Byte), Served s b → b.state = .failure →
    Answers (.write data) s b (oneWord 0x00000004)

/-- The short-input guard (R75), subject to the capacity check (R85): fewer than four bytes in all are kept unparsed and
STATE becomes InProgress, from Empty and from InProgress; in Failure the guard does not apply. -/
def Obligations.ShortInputIsKept : Prop :=
  ∀ (s : State) (b : Block) (data : List Byte), Served s b → b.pending.length + data.length < 4 →
    (b.state ≠ .failure →
      Block.WithinCaps s.params { state := .inProgress, pending := b.pending ++ data, decoded := b.decoded } →
      Answers (.write data) s { state := .inProgress, pending := b.pending ++ data, decoded := b.decoded }
        (oneWord 0x00000000)) ∧
    (b.state = .failure → Answers (.write data) s b (oneWord 0x00000004))

/-- A header error on the Empty path (R76, R77): the chunk is dropped and nothing changes. The header is parsed on `data`
alone, so from a launch state with bytes pending a chunk of fewer than four bytes gives FramingTooLittleData (R87); from
a reachable state the error is always the mismatch. -/
def Obligations.HeaderErrorOnEmptyDropsTheChunk : Prop :=
  ∀ (s : State) (b : Block) (data : List Byte), Served s b → b.state = .empty →
    4 ≤ b.pending.length + data.length →
    (data.length < 4 → Answers (.write data) s b (oneWord 0x00000001)) ∧
    (∀ (b0 : Byte) (more : List Byte), data = b0 :: more → 4 ≤ data.length → b0 ≠ s.params.delim →
      Answers (.write data) s b (oneWord 0x00000002)) ∧
    (b.Reachable s.params → 4 ≤ data.length)

/-- Empty path, Equal (R78). -/
def Obligations.ExactFrameOnEmptyIsQueued : Prop :=
  ∀ (s : State) (b : Block) (tag hi lo : Byte) (payload : List Byte), Served s b → b.state = .empty →
    payload.length = sizeOf16 hi lo →
    Block.WithinCaps s.params { b with decoded := b.decoded ++ [⟨tag, payload⟩] } →
    Answers (.write (s.params.delim :: tag :: hi :: lo :: payload)) s
      { state := .empty, pending := b.pending, decoded := b.decoded ++ [⟨tag, payload⟩] } (oneWord 0x00000000)

/-- Empty path, Less (R79). -/
def Obligations.PartialFrameOnEmptyIsKept : Prop :=
  ∀ (s : State) (b : Block) (tag hi lo : Byte) (part : List Byte), Served s b → b.state = .empty →
    part.length < sizeOf16 hi lo →
    Block.WithinCaps s.params { b with pending := b.pending ++ s.params.delim :: tag :: hi :: lo :: part } →
    Answers (.write (s.params.delim :: tag :: hi :: lo :: part)) s
      { state := .inProgress, pending := b.pending ++ s.params.delim :: tag :: hi :: lo :: part, decoded := b.decoded }
      (oneWord 0x00000000)

/-- Empty path, Greater (R80): one frame is queued and the tail REPLACES what was pending. -/
def Obligations.LongChunkOnEmptyKeepsItsTail : Prop :=
  ∀ (s : State) (b : Block) (tag hi lo : Byte) (payload tail : List Byte), Served s b → b.state = .empty →
    payload.length = sizeOf16 hi lo → tail ≠ [] →
    Block.WithinCaps s.params { state := .inProgress, pending := tail, decoded := b.decoded ++ [⟨tag, payload⟩] } →
    Answers (.write (s.params.delim :: tag :: hi :: lo :: (payload ++ tail))) s
      { state := .inProgress, pending := tail, decoded := b.decoded ++ [⟨tag, payload⟩] } (oneWord 0x00000000)

/-- InProgress path, header error (R81): the mismatch is reported and the appended bytes stay in PENDING. -/
def Obligations.MismatchInProgressKeepsTheBytes : Prop :=
  ∀ (s : State) (b : Block) (data : List Byte) (b0 : Byte) (more : List Byte), Served s b → b.state = .inProgress →
    b.pending ++ data = b0 :: more → 4 ≤ (b.pending ++ data).length → b0 ≠ s.params.delim →
    Block.WithinCaps s.params { b with pending := b.pending ++ data } →
    Answers (.write data) s { state := .inProgress, pending := b.pending ++ data, decoded := b.decoded }
      (oneWord 0x00000002)

/-- InProgress path, Equal (R82). -/
def Obligations.FrameCompletesInProgress : Prop :=
  ∀ (s : State) (b : Block) (data : List Byte) (tag hi lo : Byte) (payload : List Byte), Served s b →
    b.state = .inProgress → b.pending ++ data = s.params.delim :: tag :: hi :: lo :: payload →
    payload.length = sizeOf16 hi lo →
    Block.WithinCaps s.params { state := .empty, pending := [], decoded := b.decoded ++ [⟨tag, payload⟩] } →
    Answers (.write data) s { state := .empty, pending := [], decoded := b.decoded ++ [⟨tag, payload⟩] }
      (oneWord 0x00000000)

/-- InProgress path, Less (R83). -/
def Obligations.PartialFrameInProgressGrows : Prop :=
  ∀ (s : State) (b : Block) (data : List Byte) (tag hi lo : Byte) (part : List Byte), Served s b →
    b.state = .inProgress → b.pending ++ data = s.params.delim :: tag :: hi :: lo :: part →
    part.length < sizeOf16 hi lo →
    Block.WithinCaps s.params { b with pending := b.pending ++ data } →
    Answers (.write data) s { state := .inProgress, pending := b.pending ++ data, decoded := b.decoded }
      (oneWord 0x00000000)

/-- InProgress path, Greater (R84). -/
def Obligations.LongBufferInProgressKeepsItsTail : Prop :=
  ∀ (s : State) (b : Block) (data : List Byte) (tag hi lo : Byte) (payload tail : List Byte), Served s b →
    b.state = .inProgress → b.pending ++ data = s.params.delim :: tag :: hi :: lo :: (payload ++ tail) →
    payload.length = sizeOf16 hi lo → tail ≠ [] →
    Block.WithinCaps s.params { state := .inProgress, pending := tail, decoded := b.decoded ++ [⟨tag, payload⟩] } →
    Answers (.write data) s { state := .inProgress, pending := tail, decoded := b.decoded ++ [⟨tag, payload⟩] }
      (oneWord 0x00000000)

/-- The capacity check (R85), told as the difference between the two modes: where the branch changes state, the enforcing
block does what the unbounded one does if that keeps both caps, and otherwise answers StreamBytesFull and keeps its state
whole; in Failure (R74) and on a header error on the Empty path (R77) the two do the same. -/
def Obligations.CapacityCheckRejectsWhole : Prop :=
  ∀ (s : State) (b : Block) (data : List Byte), Served s b → s.params.capacityMode = .enforced →
    ∃ b' r,
      Answers (.write data) { s with params := { s.params with capacityMode := .unbounded } } b' r ∧
      (if noCheck s.params.delim b data then Answers (.write data) s b' r
       else if s.params.pendingCap < b'.pending.length ∨ s.params.queueDepth < b'.decoded.length then
         Answers (.write data) s b (oneWord 0x00000005)
       else Answers (.write data) s b' r)

/-- One WRITE completes from every state and queues at most one frame, at the tail (R86). -/
def Obligations.WriteQueuesAtMostOneFrame : Prop :=
  ∀ (s : State) (b : Block) (data : List Byte), Served s b →
    ∃ b' r, Answers (.write data) s b' r ∧ (b'.decoded = b.decoded ∨ ∃ f, b'.decoded = b.decoded ++ [f])

/-- WRITE answers FramingTooLittleData exactly when the instance is Empty, the bytes are four or more in all and the chunk
alone is shorter than a header; then bytes were pending and nothing changes; a reachable instance never does (R87). -/
def Obligations.WriteNeverTooLittleFromCleanStates : Prop :=
  ∀ (s : State) (b : Block) (data : List Byte), Served s b →
    ∃ b' r, Answers (.write data) s b' r ∧
      (r.word.extractLsb' 0 8 = 0x01#8 ↔
        b.state = .empty ∧ 4 ≤ b.pending.length + data.length ∧ data.length < 4) ∧
      (r.word.extractLsb' 0 8 = 0x01#8 → b.pending ≠ [] ∧ b' = b ∧ r = oneWord 0x00000001) ∧
      (b.Reachable s.params → r.word.extractLsb' 0 8 ≠ 0x01#8)

/-- The tag is opaque (R89): two WRITEs whose whole buffers differ in the tag byte alone take the same branch, answer the
same, and leave the same state but for that byte and the tag of the frame. -/
def Obligations.TagNeverChangesABranch : Prop :=
  ∀ (s₁ s₂ : State) (b₁ b₂ : Block) (data₁ data₂ : List Byte) (b0 tag₁ tag₂ hi lo : Byte) (rest : List Byte),
    Served s₁ b₁ → Served s₂ b₂ → s₁.params = s₂.params → b₁.state = b₂.state → b₁.decoded = b₂.decoded →
    b₁.pending.length = b₂.pending.length → b₁.EmptyClean →
    b₁.pending ++ data₁ = b0 :: tag₁ :: hi :: lo :: rest → b₂.pending ++ data₂ = b0 :: tag₂ :: hi :: lo :: rest →
    ∃ b₁' b₂' r, Answers (.write data₁) s₁ b₁' r ∧ Answers (.write data₂) s₂ b₂' r ∧ b₁'.state = b₂'.state ∧
      ((b₁'.decoded = b₁.decoded ∧ b₂'.decoded = b₂.decoded ∧ b₁'.pending.set 1 0 = b₂'.pending.set 1 0) ∨
       (∃ payload, b₁'.decoded = b₁.decoded ++ [⟨tag₁, payload⟩] ∧ b₂'.decoded = b₂.decoded ++ [⟨tag₂, payload⟩] ∧
          b₁'.pending = b₂'.pending))

/-- Fragmentation independence for one frame (R90). The split is `before ++ [last]` and then `k` empty chunks, `last`
being the last chunk that is not empty; no cap is hit. -/
def Obligations.FragmentationDoesNotMatter : Prop :=
  ∀ (s : State) (b : Block) (tag hi lo : Byte) (payload : List Byte) (before : List (List Byte)) (last : List Byte)
    (k : Nat), Served s b → b.state = .empty → b.pending = [] → payload.length = sizeOf16 hi lo → last ≠ [] →
    before.flatten ++ last = s.params.delim :: tag :: hi :: lo :: payload →
    (s.params.capacityMode = .enforced →
      payload.length + 4 ≤ s.params.pendingCap ∧ b.decoded.length + 1 ≤ s.params.queueDepth) →
    (∃ t b₁, execAll (before.map Instr.write) s = .next t ∧ Served t b₁ ∧ b₁.decoded = b.decoded ∧
      t.responses = s.responses ++ List.replicate before.length (s.port, oneWord 0x00000000)) ∧
    execAll ((before ++ [last]).map Instr.write) s = .next
      { s with
        blocks := s.blocks.set s.port { state := .empty, pending := [], decoded := b.decoded ++ [⟨tag, payload⟩] }
        responses := s.responses ++ List.replicate (before.length + 1) (s.port, oneWord 0x00000000) } ∧
    execAll ((before ++ [last] ++ List.replicate k []).map Instr.write) s = .next
      { s with
        blocks := s.blocks.set s.port
          { state := if k = 0 then .empty else .inProgress, pending := [], decoded := b.decoded ++ [⟨tag, payload⟩] }
        responses := s.responses ++ List.replicate (before.length + 1 + k) (s.port, oneWord 0x00000000) }

/-- PUMP (R63): the command word 0x00000001, and what an empty WRITE does to what is pending. Subject to R85. -/
def Obligations.PumpExtractsTheNextFrame : Prop :=
  decodeCommand [0x00, 0x00, 0x00, 0x01] = .instr pump [] ∧
  ∀ (s : State) (b : Block), Served s b → b.WithinCaps s.params →
    (b.state ≠ .failure → b.pending.length < 4 → Answers pump s { b with state := .inProgress } (oneWord 0x00000000)) ∧
    (b.state = .inProgress → ∀ b0 more, b.pending = b0 :: more → 4 ≤ b.pending.length → b0 ≠ s.params.delim →
      Answers pump s b (oneWord 0x00000002)) ∧
    (b.state = .inProgress → ∀ tag hi lo part, b.pending = s.params.delim :: tag :: hi :: lo :: part →
      part.length < sizeOf16 hi lo → Answers pump s b (oneWord 0x00000000)) ∧
    (b.state = .inProgress → ∀ tag hi lo payload tail,
      b.pending = s.params.delim :: tag :: hi :: lo :: (payload ++ tail) → payload.length = sizeOf16 hi lo →
      (s.params.capacityMode = .enforced → b.decoded.length + 1 ≤ s.params.queueDepth) →
      Answers pump s
        { state := if tail = [] then .empty else .inProgress, pending := tail,
          decoded := b.decoded ++ [⟨tag, payload⟩] } (oneWord 0x00000000))

/-- FRAME, in the meaning log entry 8 gives it: the WRITE that carries exactly the frame (WRITEF, R64). From Empty with
nothing pending it queues that frame and leaves Empty. -/
def Obligations.FrameIsTheWriteThatCarriesIt : Prop :=
  ∀ (s : State) (tag hi lo : Byte) (payload : List Byte), payload.length = sizeOf16 hi lo →
    exec (.frame tag payload) s = exec (.write (s.params.delim :: tag :: hi :: lo :: payload)) s ∧
    ∀ b, Served s b → b.state = .empty → b.pending = [] →
      (s.params.capacityMode = .enforced → b.decoded.length + 1 ≤ s.params.queueDepth) →
      Answers (.frame tag payload) s { state := .empty, pending := [], decoded := b.decoded ++ [⟨tag, payload⟩] }
        (oneWord 0x00000000)

/-- An empty chunk before a chunk (R131): with a valid header the two paths answer the same and, where they take the chunk,
leave the same state; on a mismatch Empty drops the chunk and InProgress keeps it. -/
def Obligations.EmptyChunkMattersOnlyOnMismatch : Prop :=
  ∀ (s : State) (q : List Frame) (data : List Byte), Served s { state := .empty, pending := [], decoded := q } →
    (∀ tag hi lo rest, data = s.params.delim :: tag :: hi :: lo :: rest →
      ∃ b₁ b₂ r, Answers (.write data) s b₁ r ∧
        Answers (.write data) { s with blocks := s.blocks.set s.port { state := .inProgress, pending := [], decoded := q } }
          b₂ r ∧ (r.word = 0x00000000#32 ∨ r.word = 0x00000005#32) ∧ (r.word = 0x00000000#32 → b₁ = b₂)) ∧
    (∀ b0 more, data = b0 :: more → 4 ≤ data.length → b0 ≠ s.params.delim →
      (s.params.capacityMode = .enforced →
        data.length ≤ s.params.pendingCap ∧ q.length ≤ s.params.queueDepth) →
      Answers (.write data) s { state := .empty, pending := [], decoded := q } (oneWord 0x00000002) ∧
      Answers (.write data) { s with blocks := s.blocks.set s.port { state := .inProgress, pending := [], decoded := q } }
        { state := .inProgress, pending := data, decoded := q } (oneWord 0x00000002))

/-- A delimiter mismatch in InProgress is sticky (R125): every later WRITE answers FramingDelimiterMismatch and PENDING
grows by its chunk, or StreamBytesFull and the chunk is not taken; STATE stays InProgress and no frame is queued. -/
def Obligations.MismatchInProgressIsSticky : Prop :=
  ∀ (chunks : List (List Byte)) (s : State) (b : Block) (b0 : Byte) (more : List Byte), Served s b →
    b.state = .inProgress → b.pending = b0 :: more → 4 ≤ b.pending.length → b0 ≠ s.params.delim →
    ∃ t rs, execAll (chunks.map Instr.write) s = .next t ∧
      Served t { state := .inProgress, pending := b.pending ++ keptChunks (chunks.zip rs), decoded := b.decoded } ∧
      t.responses = s.responses ++ rs.map (fun r => (s.port, r)) ∧ rs.length = chunks.length ∧
      ∀ r ∈ rs, r = oneWord 0x00000002 ∨
        (r = oneWord 0x00000005 ∧ s.params.capacityMode = .enforced)

/-- A full queue rejects a frame whole and takes the same chunk after one NEXT (R129, R85). -/
def Obligations.FullQueueTakesTheChunkAfterNext : Prop :=
  ∀ (s : State) (f : Frame) (q : List Frame) (tag hi lo : Byte) (payload : List Byte),
    Served s { state := .empty, pending := [], decoded := f :: q } → s.params.capacityMode = .enforced →
    (f :: q).length = s.params.queueDepth → payload.length = sizeOf16 hi lo →
    execAll [.write (s.params.delim :: tag :: hi :: lo :: payload), .next,
        .write (s.params.delim :: tag :: hi :: lo :: payload)] s = .next
      { s with
        blocks := s.blocks.set s.port { state := .empty, pending := [], decoded := q ++ [⟨tag, payload⟩] }
        responses := s.responses ++
          [(s.port, oneWord 0x00000005), (s.port, nextResponse f), (s.port, oneWord 0x00000000)] }

/-! ## NEXT, STATUS, RESET, reserved commands -/

/-- NEXT (R91, R92): its one command word, and what it does: outside Failure the head of DECODED is returned and leaves, and an empty DECODED gives
StreamMessageCountZero; in Failure nothing is popped, whatever DECODED holds. STATE and PENDING stay. -/
def Obligations.NextReturnsTheOldestFrame : Prop :=
  (∀ (w : Word) (operand : List Byte), operand.length = cmdLen w →
    (Selects w operand .next ↔ w = 0x00000002#32)) ∧
  ∀ (s : State) (b : Block), Served s b →
    (b.state = .failure → Answers .next s b (oneWord 0x00000004)) ∧
    (b.state ≠ .failure → b.decoded = [] → Answers .next s b (oneWord 0x00000003)) ∧
    (b.state ≠ .failure → ∀ f q, b.decoded = f :: q →
      Answers .next s { state := b.state, pending := b.pending, decoded := q } (nextResponse f))

/-- As many NEXTs as there are frames return them in order and empty DECODED; one more gives StreamMessageCountZero (R96). -/
def Obligations.NextDrainsTheQueueInOrder : Prop :=
  ∀ (q : List Frame) (s : State) (b : Block), Served s b → b.state ≠ .failure → b.decoded = q →
    execAll (List.replicate q.length .next) s = .next
      { s with
        blocks := s.blocks.set s.port { b with decoded := [] }
        responses := s.responses ++ q.map (fun f => (s.port, nextResponse f)) } ∧
    execAll (List.replicate (q.length + 1) .next) s = .next
      { s with
        blocks := s.blocks.set s.port { b with decoded := [] }
        responses := s.responses ++ q.map (fun f => (s.port, nextResponse f)) ++ [(s.port, oneWord 0x00000003)] }

/-- STATUS (R93): its one command word, and what it does: pure, in every STATE; the state's encoding (R16) and the two counts, saturated. -/
def Obligations.StatusReportsStateAndCounts : Prop :=
  (∀ (w : Word) (operand : List Byte), operand.length = cmdLen w →
    (Selects w operand .status ↔ w = 0x00000004#32)) ∧
  ∀ (s : State) (b : Block), Served s b →
    ∃ w p, Answers .status s b { word := w, words := [p], bytes := [] } ∧
      w.toNat = min b.decoded.length 65535 * 65536 +
        (match b.state with | .empty => 0 | .inProgress => 1 | .failure => 2) * 256 ∧
      p.toNat = min b.pending.length 4294967295

/-- RESET: its one command word, and what it does: it gives the reset state from every state, Failure included, and touches no other instance (R94, R119, R120). -/
def Obligations.ResetFromAnyState : Prop :=
  (∀ (w : Word) (operand : List Byte), operand.length = cmdLen w →
    (Selects w operand .reset ↔ w = 0x00000005#32)) ∧
  ∀ (s : State) (b : Block), Served s b →
    Answers .reset s { state := .empty, pending := [], decoded := [] } (oneWord 0x00000000)

/-- A reserved command (R59, R95): OP 0x00 or 0x06 .. 0xFF, or NEXT, STATUS or RESET with LEN other than 0. Its LEN operand
bytes are discarded, the answer is Unknown in every STATE, and no instance changes. -/
def Obligations.ReservedCommandAnswersUnknown : Prop :=
  ∀ (s : State) (port : Nat) (b0 b1 b2 op : Byte) (operand rest : List Byte) (more : List Event),
    s.inbox = .command port (b0 :: b1 :: b2 :: op :: (operand ++ rest)) :: more →
    operand.length = b0.toNat * 65536 + b1.toNat * 256 + b2.toNat →
    (op.toNat = 0 ∨ 6 ≤ op.toNat ∨ ((op.toNat = 2 ∨ op.toNat = 4 ∨ op.toNat = 5) ∧ operand.length ≠ 0)) →
    port < s.blocks.length →
    step s = .next
      { params := s.params, blocks := s.blocks, port := port
        inbox := if rest = [] then more else .command port rest :: more
        responses := s.responses ++ [(port, oneWord 0x0000000F)] }

/-! ## The machine -/

/-- A step runs the decoded command, on the instance behind the port it came on; the bytes after the command stay at the
head of the host's moves. -/
def Obligations.StepRunsTheDecodedCommand : Prop :=
  ∀ (s : State) (port : Nat) (bytes rest : List Byte) (more : List Event) (i : Instr),
    s.inbox = .command port bytes :: more → decodeCommand bytes = .instr i rest →
    step s = exec i
      { s with port := port, inbox := if rest = [] then more else .command port rest :: more }

/-- With no move of the host, nothing happens (R10; log entry 2). -/
def Obligations.NothingHappensWithoutACommand : Prop :=
  ∀ s : State, s.inbox = [] → step s = .next s

/-- The model's two stops, both outside any block: a move that holds less than one whole command is refused (log entry 3),
and an instruction on a port no block sits behind faults (log entry 7). -/
def Obligations.StopsLieOutsideTheBlocks : Prop :=
  (∀ (s : State) (port : Nat) (bytes : List Byte) (more : List Event), s.inbox = .command port bytes :: more →
    (bytes.length < 4 ∨ ∃ b0 b1 b2 op body, bytes = b0 :: b1 :: b2 :: op :: body ∧
      body.length < b0.toNat * 65536 + b1.toNat * 256 + b2.toNat) →
    step s = .refused .incompleteCommand) ∧
  (∀ (i : Instr) (s : State), s.blocks.length ≤ s.port → exec i s = .fault .noSuchInstance) ∧
  (∀ (i : Instr) (s : State), s.port < s.blocks.length → ∃ t, exec i s = .next t)

/-- Power-on reset puts every instance in its reset state (R118); that it arrives as a move of the host is log entry 10. -/
def Obligations.PowerOnResetsEveryInstance : Prop :=
  ∀ (s : State) (more : List Event), s.inbox = .powerOn :: more →
    step s = .next
      { s with
        blocks := List.replicate s.blocks.length { state := .empty, pending := [], decoded := [] }
        inbox := more }

/-- The state after reset: every instance Empty, with nothing pending and nothing decoded (R33, R118), and the parameters
at the values of R11. One instance, no moves, no responses and port 0 are the model's own (log entries 1, 4, 6, 7). -/
def Obligations.ResetStateIsTheSpecs : Prop :=
  (∀ (p : Params) (n : Nat), (State.powerOn p n).params = p ∧
    (State.powerOn p n).blocks = List.replicate n { state := .empty, pending := [], decoded := [] }) ∧
  State.reset.blocks = [{ state := .empty, pending := [], decoded := [] }] ∧
  State.reset.params = { delim := 0x00, capacityMode := .enforced, queueDepth := 256, pendingCap := 196605 } ∧
  State.reset.inbox = [] ∧ State.reset.responses = [] ∧ State.reset.port = 0

/-- The invariant holds after power-on reset of any number of instances, one or more, built with legal parameters. -/
def Obligations.ResetMeetsTheInvariant : Prop :=
  State.reset.Inv ∧ ∀ (p : Params) (n : Nat), p.Valid → 1 ≤ n → (State.powerOn p n).Inv

/-- Every step keeps the invariant: legal parameters (R11), and in every instance STATE is not Failure (R17), Empty implies
nothing pending (R27), both caps are kept (R29) and every queued frame is legal (R19). -/
def Obligations.StepKeepsTheInvariant : Prop :=
  ∀ s t : State, s.Inv → step s = .next t → t.Inv

/-- Every block reachable from reset is not in Failure (R17), and meets EmptyClean (R27) and WithinCaps (R29). -/
def Obligations.ReachableBlocksMeetThePremises : Prop :=
  ∀ (p : Params) (b : Block), b.Reachable p →
    b.state ≠ .failure ∧ (b.state = .empty → b.pending = []) ∧
    (p.capacityMode = .enforced → b.pending.length ≤ p.pendingCap ∧ b.decoded.length ≤ p.queueDepth)

/-- Every command completes in every STATE, and STATE changes only as R17 says: no command enters Failure. -/
def Obligations.StateTransitionsAreTheListedOnes : Prop :=
  ∀ (i : Instr) (s : State) (b : Block), Served s b → i.isCommand = true →
    ∃ b' r, Answers i s b' r ∧
      (match i with
        | .write _ => (b.state, b'.state) ∈ writeTransitions
        | .frame _ _ => True
        | .reset => b'.state = .empty
        | .next => b'.state = b.state
        | .parse _ => b'.state = b.state
        | .status => b'.state = b.state)

/-- In Failure no command but RESET changes the instance, a reserved command included, and WRITE and NEXT answer
StreamFailure (R31). -/
def Obligations.FailureIsFrozen : Prop :=
  ∀ (s : State) (b : Block), Served s b → b.state = .failure →
    (∀ i, i.isCommand = true → i ≠ .reset →
      ∃ r, Answers i s b r ∧ ((∃ data, i = .write data) ∨ i = .next → r = oneWord 0x00000004)) ∧
    (∀ op operand, execReserved op operand s = .next { s with responses := s.responses ++ [(s.port, oneWord 0x0000000F)] })

/-- The frame of every instruction: where it gives a next state, the parameters, the selected port, the host's moves and
every other instance are as before, one response is added; and PARSE and STATUS change no instance (R7, R26, R41). -/
def Obligations.InstructionsTouchOnlyTheirInstance : Prop :=
  ∀ (i : Instr) (s t : State), exec i s = .next t →
    t.params = s.params ∧ t.port = s.port ∧ t.inbox = s.inbox ∧ t.blocks.length = s.blocks.length ∧
    (∀ k : Nat, k ≠ s.port → t.blocks[k]? = s.blocks[k]?) ∧
    (∃ r, t.responses = s.responses ++ [(s.port, r)]) ∧
    ((∃ data, i = .parse data) ∨ i = .status → t.blocks = s.blocks)

/-- Instances do not influence one another (R7, R43): what an instruction does to an instance and answers depends on the
parameters and that instance alone, wherever it sits and whatever the others hold. -/
def Obligations.OtherInstancesHaveNoInfluence : Prop :=
  ∀ (i : Instr) (s₁ s₂ : State) (b : Block), Served s₁ b → Served s₂ b → s₁.params = s₂.params →
    ∃ b' r, Answers i s₁ b' r ∧ Answers i s₂ b' r

/-- An error leaves the instance as it was, but for the bytes a mismatch on the InProgress path keeps (R97, R81). -/
def Obligations.ErrorsChangeOnlyKeptBytes : Prop :=
  ∀ (i : Instr) (s : State) (b : Block), Served s b →
    ∃ b' r, Answers i s b' r ∧
      (r.word.extractLsb' 0 8 ≠ 0x00#8 →
        b' = b ∨
        (b.state = .inProgress ∧ r.word = 0x00000002#32 ∧
          ((∃ data, i = .write data ∧ b' = { b with pending := b.pending ++ data }) ∨
           (∃ tag payload, i = .frame tag payload ∧
              b' = { b with pending := b.pending ++ encode s.params.delim i }))))

/-- The form of every response (R56, R61): an error is one word whose other fields are zero, and the length of every
response is told from its first word. Frames longer than 65535 bytes are no frames (R19). -/
def Obligations.ResponsesHaveTheirForm : Prop :=
  ∀ (i : Instr) (s : State) (b : Block), Served s b → b.FramesLegal →
    ∃ b' r, Answers i s b' r ∧
      (r.word.extractLsb' 0 8 ≠ 0x00#8 → r.word.toNat < 256 ∧ r.words = [] ∧ r.bytes = []) ∧
      r.octets.length = responseLength i r.word

/-- A step adds no response, or one whose status is one of the seven the block produces (R104, R105). -/
def Obligations.OnlySevenStatusesAreProduced : Prop :=
  ∀ s t : State, step s = .next t →
    t.responses = s.responses ∨
    ∃ port r, t.responses = s.responses ++ [(port, r)] ∧
      r.word.extractLsb' 0 8 ∈ [0x00#8, 0x01#8, 0x02#8, 0x03#8, 0x04#8, 0x05#8, 0x0F#8]

/-- No status is read back (R24): with any other record of earlier responses a step does the same and adds the same. -/
def Obligations.NothingReadsEarlierResponses : Prop :=
  ∀ s t : State, step s = .next t →
    ∃ new, t.responses = s.responses ++ new ∧
      ∀ rs, step { s with responses := rs } = .next { t with responses := rs ++ new }

/-- FIFO (R20, R28, R96): over any commands but RESET, the frames NEXT returned, followed by those still queued, are the
frames first queued followed by those WRITEs queued since, at most one a WRITE. -/
def Obligations.FramesLeaveInOrder : Prop :=
  ∀ (is : List Instr) (s : State) (b : Block), Served s b → (∀ i ∈ is, i.isCommand = true ∧ i ≠ .reset) →
    ∃ t b' rs pushed, execAll is s = .next t ∧ Served t b' ∧ rs.length = is.length ∧
      t.responses = s.responses ++ rs.map (fun r => (s.port, r)) ∧
      taken (is.zip rs) ++ b'.decoded = b.decoded ++ pushed ∧
      pushed.length ≤ (is.filter (fun i => match i with | .write _ => true | _ => false)).length

/-- Reassembly: over any commands but RESET in which no header was bad, the bytes held at the start followed by the chunks
the block took are, byte for byte and in order, the wire bytes of the frames NEXT returned followed by what the block
still holds. No byte of the stream is lost, added, changed or reordered (R20, R28, R30, R80, R84, R86, R88). -/
def Obligations.StreamIsReassembledByteForByte : Prop :=
  ∀ (is : List Instr) (s : State) (b : Block), Served s b → b.EmptyClean →
    (∀ i ∈ is, i.isCommand = true ∧ i ≠ .reset) →
    ∃ t b' rs, execAll is s = .next t ∧ Served t b' ∧ rs.length = is.length ∧
      t.responses = s.responses ++ rs.map (fun r => (s.port, r)) ∧
      (NoBadHeader (is.zip rs) →
        held s.params.delim b ++ fed (is.zip rs) =
          (taken (is.zip rs)).flatMap (wire s.params.delim) ++ held s.params.delim b')
end

