-- ==== Sys2Proof/Laws/State.lean ====
section
/-! SUPPORT. One lemma per field per update of the state, so that no later proof unfolds a record update. -/

namespace Sys2Proof.Machine

section answer
variable (s : State) (b : Block) (r : Response)

@[simp] theorem State.answer_params : (s.answer b r).params = s.params := rfl
@[simp] theorem State.answer_blocks : (s.answer b r).blocks = s.blocks.set s.port b := rfl
@[simp] theorem State.answer_port : (s.answer b r).port = s.port := rfl
@[simp] theorem State.answer_inbox : (s.answer b r).inbox = s.inbox := rfl
@[simp] theorem State.answer_responses : (s.answer b r).responses = s.responses ++ [(s.port, r)] := rfl

end answer

section takeCommand
variable (s : State) (port : Nat) (rest : List Byte) (more : List Event)

@[simp] theorem takeCommand_params : (takeCommand s port rest more).params = s.params := rfl
@[simp] theorem takeCommand_blocks : (takeCommand s port rest more).blocks = s.blocks := rfl
@[simp] theorem takeCommand_port : (takeCommand s port rest more).port = port := rfl
@[simp] theorem takeCommand_inbox : (takeCommand s port rest more).inbox = requeue port rest more := rfl
@[simp] theorem takeCommand_responses : (takeCommand s port rest more).responses = s.responses := rfl

end takeCommand

section reset

@[simp] theorem Block.reset_state : Block.reset.state = .empty := rfl
@[simp] theorem Block.reset_pending : Block.reset.pending = [] := rfl
@[simp] theorem Block.reset_decoded : Block.reset.decoded = [] := rfl

variable (p : Params) (n : Nat)

@[simp] theorem State.powerOn_params : (State.powerOn p n).params = p := rfl
@[simp] theorem State.powerOn_blocks : (State.powerOn p n).blocks = List.replicate n Block.reset := rfl
@[simp] theorem State.powerOn_port : (State.powerOn p n).port = 0 := rfl
@[simp] theorem State.powerOn_inbox : (State.powerOn p n).inbox = [] := rfl
@[simp] theorem State.powerOn_responses : (State.powerOn p n).responses = [] := rfl

end reset

/-- The block an answer leaves behind the selected port. -/
theorem State.answer_served {s : State} {b₀ : Block} (h : s.blocks[s.port]? = some b₀) (b : Block) (r : Response) :
    (s.answer b r).blocks[s.port]? = some b := by
  obtain ⟨hlt, -⟩ := List.getElem?_eq_some_iff.1 h
  simp [hlt]

/-- An answer leaves every other instance alone. -/
theorem State.answer_other (s : State) (b : Block) (r : Response) {k : Nat} (hk : k ≠ s.port) :
    (s.answer b r).blocks[k]? = s.blocks[k]? := by
  simp [List.getElem?_set_ne (Ne.symm hk)]

/-- Answering with the instance unchanged leaves all instances unchanged. -/
theorem set_served {s : State} {b : Block} (h : s.blocks[s.port]? = some b) : s.blocks.set s.port b = s.blocks := by
  obtain ⟨hlt, rfl⟩ := List.getElem?_eq_some_iff.1 h
  exact List.set_getElem_self hlt

end Sys2Proof.Machine
end

