-- ==== Sys2Proof/Laws/Ops.lean ====
section
/-! SUPPORT. For each shared operation, one lemma that says everything it can do. -/

namespace Sys2Proof.Machine

/-- The capacity check either commits the candidate, which then keeps the caps, or drops it whole (R85). -/
theorem capCheck_cases (p : Params) (old new : Block) (rsp : Response) :
    (overCaps p new = false ∧ capCheck p old new rsp = (new, rsp)) ∨
    (overCaps p new = true ∧ capCheck p old new rsp = (old, errResponse .streamBytesFull)) := by
  cases h : overCaps p new <;> simp [capCheck, h, raise]

/-- When a candidate keeps the caps. -/
theorem overCaps_eq_false_iff (p : Params) (b : Block) :
    overCaps p b = false ↔
      (p.capacityMode = .enforced → b.pending.length ≤ p.pendingCap ∧ b.decoded.length ≤ p.queueDepth) := by
  cases hm : p.capacityMode <;> simp [overCaps, hm]

/-- `serve` answers exactly where a block sits behind the port. -/
theorem serve_of_served {s : State} {b : Block} (h : s.blocks[s.port]? = some b)
    (rule : Params → Block → Block × Response) :
    serve s rule = .next (s.answer (rule s.params b).1 (rule s.params b).2) := by
  simp [serve, h]

/-- `serve` stops exactly where no block sits behind the port. -/
theorem serve_of_absent {s : State} (h : s.blocks[s.port]? = none) (rule : Params → Block → Block × Response) :
    serve s rule = .fault .noSuchInstance := by
  simp [serve, h]

/-- Everything a next state of `serve` can be. -/
theorem serve_next {s t : State} {rule : Params → Block → Block × Response} (h : serve s rule = .next t) :
    ∃ b, s.blocks[s.port]? = some b ∧ t = s.answer (rule s.params b).1 (rule s.params b).2 := by
  cases hb : s.blocks[s.port]? with
  | none => simp [serve, hb] at h
  | some b => exact ⟨b, rfl, by simpa [serve, hb] using h.symm⟩

theorem requeue_eq (port : Nat) (rest : List Byte) (more : List Event) :
    requeue port rest more = if rest = [] then more else .command port rest :: more := by
  cases rest <;> simp [requeue]

end Sys2Proof.Machine
end

