-- ==== Sys2Proof/Laws/Dispatch.lean ====
section
/-! SUPPORT. What `exec` and `step` can do, said once. -/

namespace Sys2Proof.Machine

/-- Every meaning is `serve` on the instruction's rule for one instance. -/
theorem exec_eq_serve (i : Instr) (s : State) : exec i s = serve s (instrBlock i) := by
  cases i <;> rfl

/-- An instruction completes wherever a block sits behind the port. -/
theorem exec_of_served {i : Instr} {s : State} {b : Block} (h : s.blocks[s.port]? = some b) :
    exec i s = .next (s.answer (instrBlock i s.params b).1 (instrBlock i s.params b).2) := by
  rw [exec_eq_serve, serve_of_served h]

/-- Everything a next state of an instruction can be. -/
theorem exec_next {i : Instr} {s t : State} (h : exec i s = .next t) :
    ∃ b, s.blocks[s.port]? = some b ∧ t = s.answer (instrBlock i s.params b).1 (instrBlock i s.params b).2 :=
  serve_next (exec_eq_serve i s ▸ h)

/-- Everything a step that gives a next state can do: nothing, power-on reset, a defined command, a reserved one. -/
theorem step_cases {s t : State} (h : step s = .next t) :
    (s.inbox = [] ∧ t = s) ∨
    (∃ more, s.inbox = .powerOn :: more ∧
      t = { s with blocks := s.blocks.map (fun _ => Block.reset), inbox := more }) ∨
    (∃ port bytes more i rest, s.inbox = .command port bytes :: more ∧ decodeCommand bytes = .instr i rest ∧
      exec i (takeCommand s port rest more) = .next t) ∨
    (∃ port bytes more op operand rest, s.inbox = .command port bytes :: more ∧
      decodeCommand bytes = .reserved op operand rest ∧
      execReserved op operand (takeCommand s port rest more) = .next t) := by
  unfold step at h
  split at h
  · exact .inl ⟨‹_›, by simpa [idle] using h.symm⟩
  · rename_i more hi
    exact .inr (.inl ⟨more, hi, by simpa [powerCycle] using h.symm⟩)
  · rename_i port bytes more hi
    split at h
    · rename_i i rest hd
      exact .inr (.inr (.inl ⟨port, bytes, more, i, rest, hi, hd, h⟩))
    · rename_i op operand rest hd
      exact .inr (.inr (.inr ⟨port, bytes, more, op, operand, rest, hi, hd, h⟩))
    · simp [incomplete] at h

/-- Sequences of instructions, one at a time. -/
theorem execAll_cons_of_next {i : Instr} {is : List Instr} {s t : State} (h : exec i s = .next t) :
    execAll (i :: is) s = execAll is t := by
  simp [execAll, h]

theorem execAll_append {is js : List Instr} {s t : State} (h : execAll is s = .next t) :
    execAll (is ++ js) s = execAll js t := by
  induction is generalizing s with
  | nil => simp only [execAll, Host.Outcome.next.injEq] at h; simp [h]
  | cons i is ih =>
    cases he : exec i s with
    | next u => rw [execAll_cons_of_next he] at h; rw [List.cons_append, execAll_cons_of_next he]; exact ih h
    | fault r => simp [execAll, he] at h
    | refused r => simp [execAll, he] at h

end Sys2Proof.Machine
end

