-- ==== Sys2Proof/Laws/Words.lean ====
section
/-! SUPPORT. What the byte-order helpers, the command word and the response word hold. -/

namespace Sys2Proof

/-- Concatenation as a number. -/
theorem toNat_append_mul {n m : Nat} (x : BitVec n) (y : BitVec m) : (x ++ y).toNat = x.toNat * 2 ^ m + y.toNat := by
  rw [BitVec.toNat_append, Nat.shiftLeft_eq, Nat.mul_comm, Nat.two_pow_add_eq_or_of_lt y.isLt]

/-- The bytes of a word read back as that word. -/
theorem wordOfBytes_bytesOfWord (w : Word) :
    wordOfBytes (w.extractLsb' 24 8) (w.extractLsb' 16 8) (w.extractLsb' 8 8) (w.extractLsb' 0 8) = w := by
  have := w.isLt
  apply BitVec.eq_of_toNat_eq
  simp only [wordOfBytes, toNat_append_mul, BitVec.extractLsb'_toNat, Nat.shiftRight_eq_div_pow]
  omega

@[simp] theorem length_bytesOfWord (w : Word) : (bytesOfWord w).length = 4 := rfl

theorem toNat_halfOfBytes (hi lo : Byte) : (halfOfBytes hi lo).toNat = hi.toNat * 256 + lo.toNat := by
  exact toNat_append_mul hi lo

/-- The length bytes of a frame are the two bytes of its size. -/
theorem bytesOfHalf_eq (hi lo : Byte) : bytesOfHalf (hi.toNat * 256 + lo.toNat) = [hi, lo] := by
  have h1 := hi.isLt
  have h2 := lo.isLt
  have hhi : (hi.toNat * 256 + lo.toNat) >>> 8 = hi.toNat := by rw [Nat.shiftRight_eq_div_pow]; omega
  have hlo : (hi.toNat * 256 + lo.toNat) &&& 0xFF = lo.toNat := by
    rw [show (0xFF : Nat) = 2 ^ 8 - 1 from rfl, Nat.and_two_pow_sub_one_eq_mod]; omega
  simp [bytesOfHalf, hhi, hlo]

@[simp] theorem cmdOp_wordOfBytes (b0 b1 b2 b3 : Byte) : cmdOp (wordOfBytes b0 b1 b2 b3) = b3 := by
  have := b3.isLt
  apply BitVec.eq_of_toNat_eq
  simp only [cmdOp, wordOfBytes, toNat_append_mul, BitVec.extractLsb'_toNat, Nat.shiftRight_eq_div_pow]
  omega

theorem cmdLen_wordOfBytes (b0 b1 b2 b3 : Byte) :
    cmdLen (wordOfBytes b0 b1 b2 b3) = b0.toNat * 65536 + b1.toNat * 256 + b2.toNat := by
  have := b0.isLt
  have := b1.isLt
  have := b2.isLt
  have := b3.isLt
  simp only [cmdLen, wordOfBytes, toNat_append_mul, BitVec.extractLsb'_toNat, Nat.shiftRight_eq_div_pow]
  omega

@[simp] theorem cmdOp_cmdWord (op : Byte) (len : Nat) : cmdOp (cmdWord op len) = op := by
  have := op.isLt
  apply BitVec.eq_of_toNat_eq
  simp only [cmdOp, cmdWord, toNat_append_mul, BitVec.extractLsb'_toNat, Nat.shiftRight_eq_div_pow]
  omega

theorem cmdLen_cmdWord (op : Byte) {len : Nat} (h : len ≤ Config.maxChunk) : cmdLen (cmdWord op len) = len := by
  have := op.isLt
  simp only [Config.maxChunk] at h
  simp only [cmdLen, cmdWord, toNat_append_mul, BitVec.extractLsb'_toNat, Nat.shiftRight_eq_div_pow, BitVec.toNat_ofNat]
  omega

/-- A command word is its opcode and its length. -/
theorem word_eq_cmdWord (w : Word) : w = cmdWord (cmdOp w) (cmdLen w) := by
  have := w.isLt
  apply BitVec.eq_of_toNat_eq
  simp only [cmdOp, cmdLen, cmdWord, toNat_append_mul, BitVec.extractLsb'_toNat, Nat.shiftRight_eq_div_pow,
    BitVec.toNat_ofNat]
  omega

end Sys2Proof

namespace Sys2Proof.Machine

/-- A response word as a number. -/
theorem toNat_rspWord (high : BitVec 16) (mid : Byte) (code : Status) :
    (rspWord high mid code).toNat = high.toNat * 65536 + mid.toNat * 256 + (statusCode code).toNat := by
  simp only [rspWord, toNat_append_mul]
  omega

/-- The status field of a response word (R56). -/
@[simp] theorem rspWord_status (high : BitVec 16) (mid : Byte) (code : Status) :
    (rspWord high mid code).extractLsb' 0 8 = statusCode code := by
  have := (statusCode code).isLt
  apply BitVec.eq_of_toNat_eq
  rw [BitVec.extractLsb'_toNat, toNat_rspWord, Nat.shiftRight_eq_div_pow]
  omega

/-- The middle field of a response word (R57). -/
@[simp] theorem rspWord_mid (high : BitVec 16) (mid : Byte) (code : Status) :
    (rspWord high mid code).extractLsb' 8 8 = mid := by
  have := (statusCode code).isLt
  have := mid.isLt
  apply BitVec.eq_of_toNat_eq
  rw [BitVec.extractLsb'_toNat, toNat_rspWord, Nat.shiftRight_eq_div_pow]
  omega

/-- The high field of a response word (R57). -/
@[simp] theorem rspWord_high (high : BitVec 16) (mid : Byte) (code : Status) :
    (rspWord high mid code).extractLsb' 16 16 = high := by
  have := (statusCode code).isLt
  have := mid.isLt
  have := high.isLt
  apply BitVec.eq_of_toNat_eq
  rw [BitVec.extractLsb'_toNat, toNat_rspWord, Nat.shiftRight_eq_div_pow]
  omega

end Sys2Proof.Machine
end

