-- ==== Sys2Proof/Laws/Header.lean ====
section
/-! SUPPORT. What the Header Parser and the frame slices give. -/

namespace Sys2Proof.Machine

/-- The three results of the Header Parser (R67). -/
theorem parseHeader_cases (delim : Byte) (buf : List Byte) :
    (buf.length < 4 ∧ parseHeader delim buf = .error .tooLittleData) ∨
    (∃ b0 tag hi lo rest, buf = b0 :: tag :: hi :: lo :: rest ∧ b0 ≠ delim ∧
      parseHeader delim buf = .error .delimiterMismatch) ∨
    (∃ tag hi lo rest, buf = delim :: tag :: hi :: lo :: rest ∧
      parseHeader delim buf = .ok { tag := tag, size := halfOfBytes hi lo }) := by
  match buf with
  | [] => exact .inl ⟨by simp, rfl⟩
  | [_] => exact .inl ⟨by simp, rfl⟩
  | [_, _] => exact .inl ⟨by simp, rfl⟩
  | [_, _, _] => exact .inl ⟨by simp, rfl⟩
  | b0 :: tag :: hi :: lo :: rest =>
    by_cases h : b0 = delim
    · exact .inr (.inr ⟨tag, hi, lo, rest, by rw [h], by simp [parseHeader, h]⟩)
    · exact .inr (.inl ⟨b0, tag, hi, lo, rest, rfl, h, by simp [parseHeader, h]⟩)

theorem need_mk (tag hi lo : Byte) :
    FrameMetadata.need { tag := tag, size := halfOfBytes hi lo } = 4 + (hi.toNat * 256 + lo.toNat) := by
  simp [FrameMetadata.need, Config.hdrSize, toNat_halfOfBytes]

/-- The frame at the front of a buffer that holds its whole payload (R73). -/
theorem frameOf_mk (b0 tag hi lo : Byte) (payload tail : List Byte) (h : payload.length = hi.toNat * 256 + lo.toNat) :
    FrameMetadata.frameOf { tag := tag, size := halfOfBytes hi lo } (b0 :: tag :: hi :: lo :: (payload ++ tail)) =
      { tag := tag, payload := payload } := by
  simp [FrameMetadata.frameOf, need_mk, Config.hdrSize, ← h, Nat.add_comm 4]

/-- What is left of a buffer after its front frame (R80, R84). -/
theorem drop_need (b0 tag hi lo : Byte) (payload tail : List Byte) (h : payload.length = hi.toNat * 256 + lo.toNat) :
    (b0 :: tag :: hi :: lo :: (payload ++ tail)).drop (FrameMetadata.need { tag := tag, size := halfOfBytes hi lo }) =
      tail := by
  simp [need_mk, ← h, Nat.add_comm 4]

end Sys2Proof.Machine
end

