-- ==== Sys2Proof/Laws/PerInstr.lean ====
section
/-! SUPPORT. Statements about every instruction as syntax, one lemma per constructor. -/

namespace Sys2Proof.Laws.EncodedLength

/-- An encoding is four bytes of word or header and then the operand or payload (R49, R61). -/
def Statement (i : Instr) : Prop :=
  ∀ delim : Byte, (encode delim i).length = 4 +
    (match i with
      | .write data => data.length
      | .parse data => data.length
      | .frame _ payload => payload.length
      | .next => 0
      | .status => 0
      | .reset => 0)

theorem write (data : List Byte) : Statement (.write data) := fun _ => by simp [encode, encodeCommand]
theorem next : Statement .next := fun _ => by simp [encode, encodeCommand]
theorem parse (data : List Byte) : Statement (.parse data) := fun _ => by simp [encode, encodeCommand]
theorem status : Statement .status := fun _ => by simp [encode, encodeCommand]
theorem reset : Statement .reset := fun _ => by simp [encode, encodeCommand]
theorem frame (tag : Byte) (payload : List Byte) : Statement (.frame tag payload) := fun _ => by
  simp [encode, encodeFrame, bytesOfHalf]; omega

end Sys2Proof.Laws.EncodedLength
end

