-- ==== Sys2Proof/Laws/Write.lean ====
section
/-! SUPPORT. Everything WRITE can do to one instance, as one case split over R74 to R84. -/

namespace Sys2Proof.Machine

/-- How a buffer that is parsed can stand to the frame its header announces. -/
inductive BufferForm (delim : Byte) (buf : List Byte) : Prop where
  /-- Fewer than four bytes. -/
  | short (h : buf.length < 4) (hp : parseHeader delim buf = .error .tooLittleData)
  /-- Four bytes or more that do not start with the delimiter. -/
  | mismatch (b0 : Byte) (more : List Byte) (hb : buf = b0 :: more) (hl : 4 ≤ buf.length) (h0 : b0 ≠ delim)
      (hp : parseHeader delim buf = .error .delimiterMismatch)
  /-- Exactly one frame. -/
  | equal (tag hi lo : Byte) (payload : List Byte) (hb : buf = delim :: tag :: hi :: lo :: payload)
      (hs : payload.length = hi.toNat * 256 + lo.toNat)
      (hp : parseHeader delim buf = .ok { tag := tag, size := halfOfBytes hi lo })
  /-- The start of a frame. -/
  | less (tag hi lo : Byte) (part : List Byte) (hb : buf = delim :: tag :: hi :: lo :: part)
      (hs : part.length < hi.toNat * 256 + lo.toNat)
      (hp : parseHeader delim buf = .ok { tag := tag, size := halfOfBytes hi lo })
  /-- One frame and more. -/
  | greater (tag hi lo : Byte) (payload tail : List Byte) (hb : buf = delim :: tag :: hi :: lo :: (payload ++ tail))
      (hs : payload.length = hi.toNat * 256 + lo.toNat) (ht : tail ≠ [])
      (hp : parseHeader delim buf = .ok { tag := tag, size := halfOfBytes hi lo })

/-- Every buffer has one of the five forms. -/
theorem bufferForm (delim : Byte) (buf : List Byte) : BufferForm delim buf := by
  obtain ⟨h, hp⟩ | ⟨b0, tag, hi, lo, rest, rfl, h0, hp⟩ | ⟨tag, hi, lo, rest, rfl, hp⟩ := parseHeader_cases delim buf
  · exact .short h hp
  · exact .mismatch b0 _ rfl (by simp) h0 hp
  · obtain h | h | h := Nat.lt_trichotomy rest.length (hi.toNat * 256 + lo.toNat)
    · exact .less tag hi lo rest rfl h hp
    · exact .equal tag hi lo rest rfl h hp
    · refine .greater tag hi lo (rest.take (hi.toNat * 256 + lo.toNat)) (rest.drop (hi.toNat * 256 + lo.toNat))
        (by rw [List.take_append_drop]) (by simp; omega) (by simp; omega) hp

section paths
variable {p : Params} {b : Block} {delim tag hi lo : Byte} {buf payload part tail : List Byte}

/-- Empty path, Equal (R78). -/
theorem writeEmpty_equal (hs : payload.length = hi.toNat * 256 + lo.toNat) :
    writeEmpty (p.delim :: tag :: hi :: lo :: payload) p b =
      capCheck p b { b with state := .empty, decoded := b.decoded ++ [⟨tag, payload⟩] } okResponse := by
  have hf := frameOf_mk p.delim tag hi lo payload [] hs
  rw [List.append_nil] at hf
  have hn : payload.length + 1 + 1 + 1 + 1 = 4 + (hi.toNat * 256 + lo.toNat) := by omega
  simp [writeEmpty, parseHeader, need_mk, hf, qPush, hn]

/-- Empty path, Less (R79). -/
theorem writeEmpty_less (hs : part.length < hi.toNat * 256 + lo.toNat) :
    writeEmpty (p.delim :: tag :: hi :: lo :: part) p b =
      capCheck p b { b with state := .inProgress, pending := b.pending ++ p.delim :: tag :: hi :: lo :: part }
        okResponse := by
  have h1 : ¬ part.length + 1 + 1 + 1 + 1 = 4 + (hi.toNat * 256 + lo.toNat) := by omega
  have h2 : part.length + 1 + 1 + 1 + 1 < 4 + (hi.toNat * 256 + lo.toNat) := by omega
  simp [writeEmpty, parseHeader, need_mk, h1, h2]

/-- Empty path, Greater (R80). -/
theorem writeEmpty_greater (hs : payload.length = hi.toNat * 256 + lo.toNat) (ht : tail ≠ []) :
    writeEmpty (p.delim :: tag :: hi :: lo :: (payload ++ tail)) p b =
      capCheck p b { state := .inProgress, pending := tail, decoded := b.decoded ++ [⟨tag, payload⟩] } okResponse := by
  have hl : 0 < tail.length := List.length_pos_iff.2 ht
  have h1 : ¬ payload.length + tail.length + 1 + 1 + 1 + 1 = 4 + (hi.toNat * 256 + lo.toNat) := by omega
  have h2 : ¬ payload.length + tail.length + 1 + 1 + 1 + 1 < 4 + (hi.toNat * 256 + lo.toNat) := by omega
  have hf := frameOf_mk p.delim tag hi lo payload tail hs
  have hd := drop_need p.delim tag hi lo payload tail hs
  rw [need_mk] at hd
  simp only [writeEmpty, parseHeader, if_true, need_mk, hf, hd, qPush, List.length_cons, List.length_append, h1, h2, if_false]

/-- InProgress path, Equal (R82). -/
theorem writeInProgress_equal (hs : payload.length = hi.toNat * 256 + lo.toNat) :
    writeInProgress (p.delim :: tag :: hi :: lo :: payload) p b =
      capCheck p b { state := .empty, pending := [], decoded := b.decoded ++ [⟨tag, payload⟩] } okResponse := by
  have hf := frameOf_mk p.delim tag hi lo payload [] hs
  rw [List.append_nil] at hf
  have hn : payload.length + 1 + 1 + 1 + 1 = 4 + (hi.toNat * 256 + lo.toNat) := by omega
  simp [writeInProgress, parseHeader, need_mk, hf, qPush, hn]

/-- InProgress path, Less (R83). -/
theorem writeInProgress_less (hs : part.length < hi.toNat * 256 + lo.toNat) :
    writeInProgress (p.delim :: tag :: hi :: lo :: part) p b =
      capCheck p b { b with state := .inProgress, pending := p.delim :: tag :: hi :: lo :: part } okResponse := by
  have h1 : ¬ part.length + 1 + 1 + 1 + 1 = 4 + (hi.toNat * 256 + lo.toNat) := by omega
  have h2 : part.length + 1 + 1 + 1 + 1 < 4 + (hi.toNat * 256 + lo.toNat) := by omega
  simp [writeInProgress, parseHeader, need_mk, h1, h2]

/-- InProgress path, Greater (R84). -/
theorem writeInProgress_greater (hs : payload.length = hi.toNat * 256 + lo.toNat) (ht : tail ≠ []) :
    writeInProgress (p.delim :: tag :: hi :: lo :: (payload ++ tail)) p b =
      capCheck p b { state := .inProgress, pending := tail, decoded := b.decoded ++ [⟨tag, payload⟩] } okResponse := by
  have hl : 0 < tail.length := List.length_pos_iff.2 ht
  have h1 : ¬ payload.length + tail.length + 1 + 1 + 1 + 1 = 4 + (hi.toNat * 256 + lo.toNat) := by omega
  have h2 : ¬ payload.length + tail.length + 1 + 1 + 1 + 1 < 4 + (hi.toNat * 256 + lo.toNat) := by omega
  have hf := frameOf_mk p.delim tag hi lo payload tail hs
  have hd := drop_need p.delim tag hi lo payload tail hs
  rw [need_mk] at hd
  simp only [writeInProgress, parseHeader, if_true, need_mk, hf, hd, qPush, List.length_cons, List.length_append, h1, h2,
    if_false]

end paths

/-- The four ways WRITE can go (R73): rejected in Failure (R74), kept short (R75), the Empty path (R76) and the InProgress
path (R81). -/
theorem writeBlock_cases (data : List Byte) (p : Params) (b : Block) :
    (b.state = .failure ∧ writeBlock data p b = (b, errResponse .streamFailure)) ∨
    (b.state ≠ .failure ∧ b.pending.length + data.length < 4 ∧
      writeBlock data p b =
        capCheck p b { b with state := .inProgress, pending := b.pending ++ data } okResponse) ∨
    (b.state = .empty ∧ 4 ≤ b.pending.length + data.length ∧ writeBlock data p b = writeEmpty data p b) ∨
    (b.state = .inProgress ∧ 4 ≤ b.pending.length + data.length ∧
      writeBlock data p b = writeInProgress (b.pending ++ data) p b) := by
  by_cases hl : b.pending.length + data.length < 4
  all_goals
    cases hs : b.state <;>
      simp [writeBlock, hs, hl, writeShort, raise, Config.hdrSize, Nat.le_of_not_lt]

end Sys2Proof.Machine
end

