-- ==== Sys2Proof/Tests/Slice0.lean ====
section
/-! SUPPORT. Tests with results from the spec (spec/30_encoding.md R66, spec/95_test_vectors.md, cited at each), a smoke test
of WellFormed, and for every statement with hypotheses a state and operands that meet them all together. -/

namespace Sys2Proof.Tests

open Sys2Proof.Machine Sys2Proof.Cert

/-! ## Small states -/

/-- One instance with the given parameters. -/
def stateOf (p : Params) (b : Block) : State :=
  { params := p, blocks := [b], port := 0, inbox := [], responses := [] }

/-- One instance with the default parameters. -/
def dflt (st : EngineState) (pend : List Byte) (q : List Frame) : State := stateOf defaultParams ⟨st, pend, q⟩

/-- The default parameters but for QUEUE_DEPTH. -/
def depth (n : Nat) : Params := { defaultParams with queueDepth := n }

/-- The next state of an outcome, if it is one. -/
def after : Host.Outcome State Fault Refusal → Option State
  | .next t => some t
  | .fault _ => none
  | .refused _ => none

/-- What an outcome shows of the first instance: its state and the responses. -/
def seen (o : Host.Outcome State Fault Refusal) : Option (Option Block × List (Nat × Response)) :=
  (after o).map (fun t => (t.blocks[0]?, t.responses))

/-! ## WellFormed -/

/-- The three length checks, on operands of zeros. -/
theorem wellFormed_zeros (n : Nat) (tag : Byte) :
    (Instr.write (List.replicate n 0)).wellFormed = decide (n ≤ 16777215) ∧
    (Instr.parse (List.replicate n 0)).wellFormed = decide (n ≤ 16777215) ∧
    (Instr.frame tag (List.replicate n 0)).wellFormed = decide (n ≤ 65535) := by
  simp [Instr.wellFormed, Config.maxChunk, Config.maxPayload]

theorem test_wellFormed_write : (Instr.write (List.replicate 16777215 0)).wellFormed = true :=
  (wellFormed_zeros 16777215 0).1.trans (by decide)
theorem test_illFormed_write : (Instr.write (List.replicate 16777216 0)).wellFormed = false :=
  (wellFormed_zeros 16777216 0).1.trans (by decide)
theorem test_wellFormed_parse : (Instr.parse (List.replicate 16777215 0)).wellFormed = true :=
  (wellFormed_zeros 16777215 0).2.1.trans (by decide)
theorem test_illFormed_parse : (Instr.parse (List.replicate 16777216 0)).wellFormed = false :=
  (wellFormed_zeros 16777216 0).2.1.trans (by decide)
theorem test_wellFormed_frame : (Instr.frame 7 (List.replicate 65535 0)).wellFormed = true :=
  (wellFormed_zeros 65535 7).2.2.trans (by decide)
theorem test_illFormed_frame : (Instr.frame 7 (List.replicate 65536 0)).wellFormed = false :=
  (wellFormed_zeros 65536 7).2.2.trans (by decide)

/-! ## Decoding words written out from the encodings -/

/-- R66: `WRITE 00 00` is 0x00000201 and its bytes. -/
theorem test_decode_write : decodeCommand [0x00, 0x00, 0x02, 0x01, 0x00, 0x00] = .instr (.write [0x00, 0x00]) [] := by
  decide
/-- R66: `NEXT` is 0x00000002. -/
theorem test_decode_next : decodeCommand [0x00, 0x00, 0x00, 0x02, 0x55] = .instr .next [0x55] := by decide
/-- R66: `PARSE 00 07 01 00` is 0x00000403 and its bytes. -/
theorem test_decode_parse :
    decodeCommand [0x00, 0x00, 0x04, 0x03, 0x00, 0x07, 0x01, 0x00] = .instr (.parse [0x00, 0x07, 0x01, 0x00]) [] := by
  decide
/-- R66: `STATUS` is 0x00000004. -/
theorem test_decode_status : decodeCommand [0x00, 0x00, 0x00, 0x04] = .instr .status [] := by decide
/-- R66: `RESET` is 0x00000005. -/
theorem test_decode_reset : decodeCommand [0x00, 0x00, 0x00, 0x05] = .instr .reset [] := by decide
/-- R47: delimiter, tag, length high, length low, payload (the frame of VW8). -/
theorem test_decode_frame :
    decodeFrame 0x00 [0x00, 0x07, 0x00, 0x02, 0x11, 0x22, 0x33] = some (.frame 0x07 [0x11, 0x22], [0x33]) := by decide
/-- R47, R48: a first byte that is not the delimiter is no frame, and neither is an unfinished payload. -/
theorem test_decode_no_frame :
    decodeFrame 0x00 [0x7E, 0x00, 0x00, 0x00] = none ∧ decodeFrame 0x00 [0x00, 0x01, 0x00, 0x01] = none := by decide
/-- VX1, VX6: OP 0x00, and RESET with LEN 3. -/
theorem test_decode_reserved :
    decodeCommand [0x00, 0x00, 0x00, 0x00] = .reserved 0x00 [] [] ∧
    decodeCommand [0x00, 0x00, 0x03, 0x05, 0x00, 0x00, 0x00] = .reserved 0x05 [0x00, 0x00, 0x00] [] := by decide
/-- R53: a command word without all its operand bytes. -/
theorem test_decode_incomplete : decodeCommand [0x00, 0x00, 0x02, 0x01, 0xAA] = .incomplete := by decide
/-- R54: LEN is 24 bits, most significant byte first. -/
theorem test_decode_len : cmdLen (wordOfBytes 0x01 0x02 0x03 0x01) = 66051 := by decide
/-- R66, R47: the encoder, on the same words. -/
theorem test_encode :
    encode 0x00 (.write [0x00, 0x00, 0x00, 0x01, 0xAB]) = [0x00, 0x00, 0x05, 0x01, 0x00, 0x00, 0x00, 0x01, 0xAB] ∧
    encode 0x00 .next = [0x00, 0x00, 0x00, 0x02] ∧
    encode 0x00 (.parse [0x00, 0x07, 0x01, 0x00]) = [0x00, 0x00, 0x04, 0x03, 0x00, 0x07, 0x01, 0x00] ∧
    encode 0x00 .status = [0x00, 0x00, 0x00, 0x04] ∧ encode 0x00 .reset = [0x00, 0x00, 0x00, 0x05] ∧
    encode 0x00 (.frame 0x07 [0x11, 0x22]) = [0x00, 0x07, 0x00, 0x02, 0x11, 0x22] := by decide
/-- The six rows of the opcode table; the row FRAME by a word that is no command (log entry 9). -/
theorem test_table_words :
    decodeTableWord 32 0x00000001 = some (.write []) ∧ decodeTableWord 32 0x00000002 = some .next ∧
    decodeTableWord 32 0x00000003 = some (.parse []) ∧ decodeTableWord 32 0x00000004 = some .status ∧
    decodeTableWord 32 0x00000005 = some .reset ∧ decodeTableWord 32 0x00000000 = some (.frame 0x00 []) := by
  decide
/-- A word of the table, placed right after reset, runs (VN1 for NEXT, VW5's form for the frame). -/
theorem test_withFetchWord :
    seen (step (State.reset.withFetchWord 32 0x00000002)) = some (some Block.reset, [(0, oneWord 0x00000003)]) ∧
    seen (step (State.reset.withFetchWord 32 0x00000000)) =
      some (some ⟨.empty, [], [⟨0x00, []⟩]⟩, [(0, oneWord 0x00000000)]) := by decide

/-! ## One step of each instruction, from spec/95_test_vectors.md -/

/-- VW17: InProgress, Greater. -/
theorem test_write_greater :
    seen (exec (.write [0x00, 0x01, 0xAB, 0x00]) (dflt .inProgress [0x00, 0x00] [])) =
      some (some ⟨.inProgress, [0x00], [⟨0x00, [0xAB]⟩]⟩, [(0, oneWord 0x00000000)]) := by decide
/-- VC3: a full queue rejects the WRITE that would complete a frame, and takes no byte. -/
theorem test_write_full :
    seen (exec (.write [0xCD]) (stateOf (depth 1) ⟨.inProgress, [0x00, 0x00, 0x00, 0x01], [⟨0x00, [0xAB]⟩]⟩)) =
      some (some ⟨.inProgress, [0x00, 0x00, 0x00, 0x01], [⟨0x00, [0xAB]⟩]⟩, [(0, oneWord 0x00000005)]) := by decide
/-- VN5: the response is 0x00020700, then `11 22`; PENDING is untouched. -/
theorem test_next_pops :
    seen (exec .next (dflt .inProgress [0x33, 0x44] [⟨0x07, [0x11, 0x22]⟩])) =
      some (some ⟨.inProgress, [0x33, 0x44], []⟩,
        [(0, { word := 0x00020700, words := [], bytes := [0x11, 0x22] })]) := by decide
/-- VN7 (launch state): no pop in Failure. -/
theorem test_next_failure :
    seen (exec .next (dflt .failure [] [⟨0x00, [0xAB]⟩])) =
      some (some ⟨.failure, [], [⟨0x00, [0xAB]⟩]⟩, [(0, oneWord 0x00000004)]) := by decide
/-- VP11: size 65535, tag 05, bytes from index 4 on ignored. -/
theorem test_parse_ok :
    seen (exec (.parse [0x00, 0x05, 0xFF, 0xFF, 0x11, 0x22]) State.reset) =
      some (some Block.reset, [(0, oneWord 0xFFFF0500)]) := by decide
/-- VP14 (launch state): PARSE works in Failure and reports the mismatch. -/
theorem test_parse_mismatch :
    seen (exec (.parse [0x7E, 0x00, 0x00, 0x01]) (dflt .failure [] [])) =
      some (some ⟨.failure, [], []⟩, [(0, oneWord 0x00000002)]) := by decide
/-- VS2. -/
theorem test_status_inProgress :
    seen (exec .status (dflt .inProgress [0x33, 0x44] [⟨0x07, [0x11, 0x22]⟩])) =
      some (some ⟨.inProgress, [0x33, 0x44], [⟨0x07, [0x11, 0x22]⟩]⟩,
        [(0, { word := 0x00010100, words := [0x00000002], bytes := [] })]) := by decide
/-- VS4 (launch state). -/
theorem test_status_failure :
    seen (exec .status (dflt .failure [0x11] [⟨0x00, [0xAB]⟩, ⟨0x01, []⟩])) =
      some (some ⟨.failure, [0x11], [⟨0x00, [0xAB]⟩, ⟨0x01, []⟩]⟩,
        [(0, { word := 0x00020200, words := [0x00000001], bytes := [] })]) := by decide
/-- VR2 (launch state). -/
theorem test_reset_failure :
    seen (exec .reset (dflt .failure [0x11] [⟨0x00, [0xAB]⟩])) =
      some (some Block.reset, [(0, oneWord 0x00000000)]) := by decide
/-- R64: WRITEF from Empty produces the frame and leaves Empty. -/
theorem test_frame_empty :
    seen (exec (.frame 0x07 [0x11, 0x22]) State.reset) =
      some (some ⟨.empty, [], [⟨0x07, [0x11, 0x22]⟩]⟩, [(0, oneWord 0x00000000)]) := by decide
/-- VX6: RESET with LEN 3 is reserved and does not reset. -/
theorem test_reserved_reset :
    seen (step { dflt .inProgress [0x7E] [] with
        inbox := [.command 0 [0x00, 0x00, 0x03, 0x05, 0x00, 0x00, 0x00]] }) =
      some (some ⟨.inProgress, [0x7E], []⟩, [(0, oneWord 0x0000000F)]) := by decide
/-- R7: a command goes to the instance behind its port, and no other. -/
theorem test_second_port :
    (after (step { State.powerOn defaultParams 2 with inbox := [.command 1 [0x00, 0x00, 0x01, 0x01, 0x00]] })).map
      (fun t => t.blocks) = some [Block.reset, ⟨.inProgress, [0x00], []⟩] := by decide
/-- R62: the notation, with a comment and PUMP (R63). -/
theorem test_assemble :
    assemble 0x00 "WRITE 00 aB ; a chunk".toList = some (.write [0x00, 0xAB]) ∧
    assemble 0x00 "PUMP".toList = some (.write []) := by decide
/-- R64: `WRITEF 07, 11 22`. -/
theorem test_assemble_writef :
    assemble 0x00 "WRITEF 07, 11 22".toList = some (.write [0x00, 0x07, 0x00, 0x02, 0x11, 0x22]) := by decide

/-! ## The hypotheses of the statements are met

One theorem for each statement with hypotheses (one for each clause where it has several), named after it. -/

theorem witness_CommandDecodesFromItsEncoding :
    (Instr.write [0xAB]).isCommand = true ∧ (Instr.write [0xAB]).wellFormed = true ∧
    Instr.reset.isCommand = true ∧ Instr.reset.wellFormed = true := by decide
theorem witness_DecodedBytesAreTheEncoding :
    decodeCommand [0x00, 0x00, 0x01, 0x03, 0x7E, 0x55] = .instr (.parse [0x7E]) [0x55] := by decide
theorem witness_FrameDecodesFromItsWireBytes : ([] : List Byte).length = sizeOf16 0x00 0x00 := by decide
theorem witness_FrameDecodesFromItsWireBytes_longest : (List.replicate 65535 (0x5A : Byte)).length = sizeOf16 0xFF 0xFF :=
  List.length_replicate.trans (by decide)
theorem witness_HeaderViewsAgree : ([0x7E, 0x00, 0x00] : List Byte).length < 4 := by decide
theorem witness_AssemblyTextRoundTrips : Instr.status.isCommand = true := by decide
theorem witness_AssemblyTextRoundTrips_longest : (List.replicate 65535 (0x5A : Byte)).length ≤ 65535 :=
  List.length_replicate.le

/-- The premise on a command word, which the statements on NEXT, STATUS and RESET share: LEN 2, 0, 1 and the largest. -/
theorem witness_ParseReportsTheHeader_word :
    ([0x00, 0x07] : List Byte).length = cmdLen 0x00000203#32 ∧ ([] : List Byte).length = cmdLen 0x00000002#32 ∧
    ([0x00] : List Byte).length = cmdLen 0x00000102#32 ∧ (List.replicate 16777215 (0 : Byte)).length = cmdLen 0xFFFFFF03#32 :=
  ⟨by decide, by decide, by decide, List.length_replicate.trans (by decide)⟩
theorem witness_ParseReportsTheHeader_short :
    Served (dflt .failure [] []) ⟨.failure, [], []⟩ ∧ ([0x00, 0x00, 0x00] : List Byte).length < 4 :=
  ⟨rfl, by decide⟩
theorem witness_ParseReportsTheHeader_mismatch :
    Served (dflt .empty [] []) ⟨.empty, [], []⟩ ∧ (0x01 : Byte) ≠ (dflt .empty [] []).params.delim :=
  ⟨rfl, by decide⟩
theorem witness_ParseReportsTheHeader_ok :
    Served (dflt .empty [] []) ⟨.empty, [], []⟩ ∧ (0x00 : Byte) = (dflt .empty [] []).params.delim :=
  ⟨rfl, by decide⟩

theorem witness_WriteInFailureIsRejected :
    Served (dflt .failure [0x11] [⟨0x00, [0xAB]⟩]) ⟨.failure, [0x11], [⟨0x00, [0xAB]⟩]⟩ := rfl
theorem witness_ShortInputIsKept :
    Served (dflt .inProgress [0x00] []) ⟨.inProgress, [0x00], []⟩ ∧
    ([0x00] : List Byte).length + ([0x05, 0x00] : List Byte).length < 4 ∧ EngineState.inProgress ≠ .failure ∧
    Block.WithinCaps defaultParams ⟨.inProgress, [0x00, 0x05, 0x00], []⟩ := ⟨rfl, by decide, by decide, by decide⟩
theorem witness_ShortInputIsKept_failure :
    Served (dflt .failure [] []) ⟨.failure, [], []⟩ ∧ ([] : List Byte).length + ([] : List Byte).length < 4 :=
  ⟨rfl, by decide⟩
theorem witness_HeaderErrorOnEmptyDropsTheChunk_short :
    Served (dflt .empty [0x00] []) ⟨.empty, [0x00], []⟩ ∧
    4 ≤ ([0x00] : List Byte).length + ([0x00, 0x00, 0x00] : List Byte).length ∧
    ([0x00, 0x00, 0x00] : List Byte).length < 4 := ⟨rfl, by decide, by decide⟩
theorem witness_HeaderErrorOnEmptyDropsTheChunk_mismatch :
    Served (dflt .empty [] []) ⟨.empty, [], []⟩ ∧
    4 ≤ ([] : List Byte).length + ([0x7E, 0x00, 0x00, 0x01] : List Byte).length ∧
    4 ≤ ([0x7E, 0x00, 0x00, 0x01] : List Byte).length ∧ (0x7E : Byte) ≠ defaultParams.delim ∧
    Block.Reachable defaultParams ⟨.empty, [], []⟩ := ⟨rfl, by decide, by decide, by decide, [], rfl⟩

theorem witness_ExactFrameOnEmptyIsQueued :
    Served (dflt .empty [] []) ⟨.empty, [], []⟩ ∧ ([0xAB] : List Byte).length = sizeOf16 0x00 0x01 ∧
    Block.WithinCaps defaultParams ⟨.empty, [], [⟨0x00, [0xAB]⟩]⟩ := ⟨rfl, by decide, by decide⟩
theorem witness_PartialFrameOnEmptyIsKept :
    Served (dflt .empty [] []) ⟨.empty, [], []⟩ ∧ ([] : List Byte).length < sizeOf16 0x00 0x01 ∧
    Block.WithinCaps defaultParams ⟨.empty, [0x00, 0x01, 0x00, 0x01], []⟩ := ⟨rfl, by decide, by decide⟩
theorem witness_LongChunkOnEmptyKeepsItsTail :
    Served (dflt .empty [] []) ⟨.empty, [], []⟩ ∧ ([0xAB] : List Byte).length = sizeOf16 0x00 0x01 ∧
    ([0x7E] : List Byte) ≠ [] ∧ Block.WithinCaps defaultParams ⟨.inProgress, [0x7E], [⟨0x00, [0xAB]⟩]⟩ :=
  ⟨rfl, by decide, by decide, by decide⟩
theorem witness_MismatchInProgressKeepsTheBytes :
    Served (dflt .inProgress [0x7E] []) ⟨.inProgress, [0x7E], []⟩ ∧
    ([0x7E] : List Byte) ++ [0x00, 0x00, 0x00] = 0x7E :: [0x00, 0x00, 0x00] ∧
    4 ≤ (([0x7E] : List Byte) ++ [0x00, 0x00, 0x00]).length ∧ (0x7E : Byte) ≠ defaultParams.delim ∧
    Block.WithinCaps defaultParams ⟨.inProgress, [0x7E, 0x00, 0x00, 0x00], []⟩ :=
  ⟨rfl, by decide, by decide, by decide, by decide⟩
theorem witness_FrameCompletesInProgress :
    Served (dflt .inProgress [0x00] []) ⟨.inProgress, [0x00], []⟩ ∧
    ([0x00] : List Byte) ++ [0x03, 0x00, 0x00] = defaultParams.delim :: 0x03 :: 0x00 :: 0x00 :: [] ∧
    ([] : List Byte).length = sizeOf16 0x00 0x00 ∧ Block.WithinCaps defaultParams ⟨.empty, [], [⟨0x03, []⟩]⟩ :=
  ⟨rfl, by decide, by decide, by decide⟩
theorem witness_PartialFrameInProgressGrows :
    Served (dflt .inProgress [0x00, 0x01, 0x00] []) ⟨.inProgress, [0x00, 0x01, 0x00], []⟩ ∧
    ([0x00, 0x01, 0x00] : List Byte) ++ [0x03, 0xAA] = defaultParams.delim :: 0x01 :: 0x00 :: 0x03 :: [0xAA] ∧
    ([0xAA] : List Byte).length < sizeOf16 0x00 0x03 ∧
    Block.WithinCaps defaultParams ⟨.inProgress, [0x00, 0x01, 0x00, 0x03, 0xAA], []⟩ :=
  ⟨rfl, by decide, by decide, by decide⟩
theorem witness_LongBufferInProgressKeepsItsTail :
    Served (dflt .inProgress [0x00, 0x00] []) ⟨.inProgress, [0x00, 0x00], []⟩ ∧
    ([0x00, 0x00] : List Byte) ++ [0x00, 0x01, 0xAB, 0x00] =
      defaultParams.delim :: 0x00 :: 0x00 :: 0x01 :: ([0xAB] ++ [0x00]) ∧
    ([0xAB] : List Byte).length = sizeOf16 0x00 0x01 ∧ ([0x00] : List Byte) ≠ [] ∧
    Block.WithinCaps defaultParams ⟨.inProgress, [0x00], [⟨0x00, [0xAB]⟩]⟩ :=
  ⟨rfl, by decide, by decide, by decide, by decide⟩

/-- VC1: the check applies, and the candidate is over a cap. -/
theorem witness_CapacityCheckRejectsWhole_over :
    Served (stateOf (depth 1) ⟨.empty, [], [⟨0x00, [0xAB]⟩]⟩) ⟨.empty, [], [⟨0x00, [0xAB]⟩]⟩ ∧
    (depth 1).capacityMode = .enforced ∧ ¬ noCheck 0x00 ⟨.empty, [], [⟨0x00, [0xAB]⟩]⟩ [0x00, 0x00, 0x00, 0x00] ∧
    (depth 1).queueDepth < ([⟨0x00, [0xAB]⟩, ⟨0x00, []⟩] : List Frame).length := ⟨rfl, by decide, by decide, by decide⟩
/-- VC2: the check applies, and the candidate keeps both caps. -/
theorem witness_CapacityCheckRejectsWhole_within :
    Served (stateOf (depth 1) ⟨.empty, [], [⟨0x00, [0xAB]⟩]⟩) ⟨.empty, [], [⟨0x00, [0xAB]⟩]⟩ ∧
    (depth 1).capacityMode = .enforced ∧ ¬ noCheck 0x00 ⟨.empty, [], [⟨0x00, [0xAB]⟩]⟩ [0x00, 0x00, 0x00, 0x01] ∧
    Block.WithinCaps (depth 1) ⟨.inProgress, [0x00, 0x00, 0x00, 0x01], [⟨0x00, [0xAB]⟩]⟩ :=
  ⟨rfl, by decide, by decide, by decide⟩
/-- VW11: the check does not apply. -/
theorem witness_CapacityCheckRejectsWhole_exempt :
    Served (dflt .empty [] []) ⟨.empty, [], []⟩ ∧ defaultParams.capacityMode = .enforced ∧
    noCheck 0x00 ⟨.empty, [], []⟩ [0x7E, 0x00, 0x00, 0x01, 0xAB] := ⟨rfl, by decide, by decide⟩

theorem witness_WriteQueuesAtMostOneFrame : Served (dflt .inProgress [0x7E] []) ⟨.inProgress, [0x7E], []⟩ := rfl
/-- VW29: the launch state in which WRITE answers FramingTooLittleData. -/
theorem witness_WriteNeverTooLittleFromCleanStates :
    Served (dflt .empty [0x00] []) ⟨.empty, [0x00], []⟩ ∧
    4 ≤ ([0x00] : List Byte).length + ([0x00, 0x00, 0x00] : List Byte).length ∧
    ([0x00, 0x00, 0x00] : List Byte).length < 4 := ⟨rfl, by decide, by decide⟩
theorem witness_WriteNeverTooLittleFromCleanStates_reachable :
    Served (dflt .inProgress [0x7E] []) ⟨.inProgress, [0x7E], []⟩ ∧
    Block.Reachable defaultParams ⟨.inProgress, [0x7E], []⟩ := ⟨rfl, [.instr (.write [0x7E])], by decide⟩
theorem witness_TagNeverChangesABranch :
    Served (dflt .inProgress [0x00, 0x01] []) ⟨.inProgress, [0x00, 0x01], []⟩ ∧
    Served (dflt .inProgress [0x00, 0x08] []) ⟨.inProgress, [0x00, 0x08], []⟩ ∧
    Block.EmptyClean ⟨.inProgress, [0x00, 0x01], []⟩ ∧
    ([0x00, 0x01] : List Byte) ++ [0x00, 0x00] = 0x00 :: 0x01 :: 0x00 :: 0x00 :: [] ∧
    ([0x00, 0x08] : List Byte) ++ [0x00, 0x00] = 0x00 :: 0x08 :: 0x00 :: 0x00 :: [] :=
  ⟨rfl, rfl, by decide, by decide, by decide⟩
/-- The split of source P3, with an empty chunk. -/
theorem witness_FragmentationDoesNotMatter :
    Served (dflt .empty [] []) ⟨.empty, [], []⟩ ∧ ([0xAB] : List Byte).length = sizeOf16 0x00 0x01 ∧
    ([0xAB] : List Byte) ≠ [] ∧
    ([[0x00, 0x00], [], [0x00, 0x01]] : List (List Byte)).flatten ++ [0xAB] =
      defaultParams.delim :: 0x00 :: 0x00 :: 0x01 :: [0xAB] ∧
    (defaultParams.capacityMode = .enforced →
      ([0xAB] : List Byte).length + 4 ≤ defaultParams.pendingCap ∧
      ([] : List Frame).length + 1 ≤ defaultParams.queueDepth) :=
  ⟨rfl, by decide, by decide, by decide, by decide⟩

theorem witness_PumpExtractsTheNextFrame_short :
    Served (dflt .empty [] []) ⟨.empty, [], []⟩ ∧ Block.WithinCaps defaultParams ⟨.empty, [], []⟩ ∧
    ([] : List Byte).length < 4 := ⟨rfl, by decide, by decide⟩
theorem witness_PumpExtractsTheNextFrame_mismatch :
    Served (dflt .inProgress [0x7E, 0x00, 0x00, 0x00] []) ⟨.inProgress, [0x7E, 0x00, 0x00, 0x00], []⟩ ∧
    Block.WithinCaps defaultParams ⟨.inProgress, [0x7E, 0x00, 0x00, 0x00], []⟩ ∧ (0x7E : Byte) ≠ defaultParams.delim :=
  ⟨rfl, by decide, by decide⟩
theorem witness_PumpExtractsTheNextFrame_less :
    Served (dflt .inProgress [0x00, 0x01, 0x00, 0x01] []) ⟨.inProgress, [0x00, 0x01, 0x00, 0x01], []⟩ ∧
    Block.WithinCaps defaultParams ⟨.inProgress, [0x00, 0x01, 0x00, 0x01], []⟩ ∧
    ([] : List Byte).length < sizeOf16 0x00 0x01 := ⟨rfl, by decide, by decide⟩
/-- VW10: the end of VW9, then PUMP. -/
theorem witness_PumpExtractsTheNextFrame_frame :
    Served (dflt .inProgress [0x00, 0x02, 0x00, 0x01, 0xBB] [⟨0x01, [0xAA]⟩])
      ⟨.inProgress, [0x00, 0x02, 0x00, 0x01, 0xBB], [⟨0x01, [0xAA]⟩]⟩ ∧
    Block.WithinCaps defaultParams ⟨.inProgress, [0x00, 0x02, 0x00, 0x01, 0xBB], [⟨0x01, [0xAA]⟩]⟩ ∧
    ([0xBB] : List Byte).length = sizeOf16 0x00 0x01 ∧
    (defaultParams.capacityMode = .enforced → ([⟨0x01, [0xAA]⟩] : List Frame).length + 1 ≤ defaultParams.queueDepth) :=
  ⟨rfl, by decide, by decide, by decide⟩
theorem witness_FrameIsTheWriteThatCarriesIt :
    ([0x11, 0x22] : List Byte).length = sizeOf16 0x00 0x02 ∧ Served (dflt .empty [] []) ⟨.empty, [], []⟩ ∧
    (defaultParams.capacityMode = .enforced → ([] : List Frame).length + 1 ≤ defaultParams.queueDepth) :=
  ⟨by decide, rfl, by decide⟩
theorem witness_EmptyChunkMattersOnlyOnMismatch_valid :
    Served (dflt .empty [] []) { state := .empty, pending := [], decoded := [] } ∧
    ([0x00, 0x00, 0x00, 0x01, 0xAB] : List Byte) = defaultParams.delim :: 0x00 :: 0x00 :: 0x01 :: [0xAB] :=
  ⟨rfl, by decide⟩
theorem witness_EmptyChunkMattersOnlyOnMismatch_mismatch :
    Served (dflt .empty [] []) { state := .empty, pending := [], decoded := [] } ∧
    4 ≤ ([0x7E, 0x00, 0x00, 0x01, 0xAB] : List Byte).length ∧ (0x7E : Byte) ≠ defaultParams.delim ∧
    (defaultParams.capacityMode = .enforced →
      ([0x7E, 0x00, 0x00, 0x01, 0xAB] : List Byte).length ≤ defaultParams.pendingCap ∧
      ([] : List Frame).length ≤ defaultParams.queueDepth) := ⟨rfl, by decide, by decide, by decide⟩
theorem witness_MismatchInProgressIsSticky :
    Served (dflt .inProgress [0x7E, 0x00, 0x00, 0x00] []) ⟨.inProgress, [0x7E, 0x00, 0x00, 0x00], []⟩ ∧
    4 ≤ ([0x7E, 0x00, 0x00, 0x00] : List Byte).length ∧ (0x7E : Byte) ≠ defaultParams.delim := ⟨rfl, by decide, by decide⟩
/-- 95 Program 4 has this form, with depth 2. -/
theorem witness_FullQueueTakesTheChunkAfterNext :
    Served (stateOf (depth 1) ⟨.empty, [], [⟨0x01, []⟩]⟩) { state := .empty, pending := [], decoded := [⟨0x01, []⟩] } ∧
    (depth 1).capacityMode = .enforced ∧ ([⟨0x01, []⟩] : List Frame).length = (depth 1).queueDepth ∧
    ([] : List Byte).length = sizeOf16 0x00 0x00 := ⟨rfl, by decide, by decide, by decide⟩

theorem witness_NextReturnsTheOldestFrame_word : ([] : List Byte).length = cmdLen 0x00000002#32 := by decide
theorem witness_StatusReportsStateAndCounts_word : ([] : List Byte).length = cmdLen 0x00000004#32 := by decide
theorem witness_ResetFromAnyState_word : ([] : List Byte).length = cmdLen 0x00000005#32 := by decide
theorem witness_NextReturnsTheOldestFrame_failure :
    Served (dflt .failure [] [⟨0x00, [0xAB]⟩]) ⟨.failure, [], [⟨0x00, [0xAB]⟩]⟩ := rfl
theorem witness_NextReturnsTheOldestFrame_none :
    Served (dflt .empty [] []) ⟨.empty, [], []⟩ ∧ EngineState.empty ≠ .failure := ⟨rfl, by decide⟩
theorem witness_NextReturnsTheOldestFrame_frame :
    Served (dflt .inProgress [0x33] [⟨0x03, []⟩, ⟨0x01, [0xAA]⟩]) ⟨.inProgress, [0x33], [⟨0x03, []⟩, ⟨0x01, [0xAA]⟩]⟩ ∧
    EngineState.inProgress ≠ .failure := ⟨rfl, by decide⟩
theorem witness_NextDrainsTheQueueInOrder :
    Served (dflt .empty [] [⟨0x01, [0xAA]⟩, ⟨0x02, [0xBB]⟩]) ⟨.empty, [], [⟨0x01, [0xAA]⟩, ⟨0x02, [0xBB]⟩]⟩ ∧
    EngineState.empty ≠ .failure := ⟨rfl, by decide⟩
theorem witness_StatusReportsStateAndCounts : Served (dflt .failure [0x11] []) ⟨.failure, [0x11], []⟩ := rfl
theorem witness_ResetFromAnyState : Served (dflt .failure [0x11] []) ⟨.failure, [0x11], []⟩ := rfl
/-- VX4, and a second command behind the reserved one. -/
theorem witness_ReservedCommandAnswersUnknown_length :
    ({ dflt .empty [] [⟨0x00, [0xAB]⟩] with
        inbox := [.command 0 [0x00, 0x00, 0x01, 0x02, 0x00, 0x00, 0x00, 0x00, 0x04]] } : State).inbox =
      .command 0 (0x00 :: 0x00 :: 0x01 :: 0x02 :: ([0x00] ++ [0x00, 0x00, 0x00, 0x04])) :: [] ∧
    ([0x00] : List Byte).length = (0x00 : Byte).toNat * 65536 + (0x00 : Byte).toNat * 256 + (0x01 : Byte).toNat ∧
    (0x02 : Byte).toNat = 2 ∧ ([0x00] : List Byte).length ≠ 0 ∧ 0 < (dflt .empty [] [⟨0x00, [0xAB]⟩]).blocks.length := by
  decide
/-- VX1 and VX2: the opcodes next to the defined ones. -/
theorem witness_ReservedCommandAnswersUnknown_opcode :
    ({ State.reset with inbox := [.command 0 [0x00, 0x00, 0x00, 0x06]] } : State).inbox =
      .command 0 (0x00 :: 0x00 :: 0x00 :: 0x06 :: ([] ++ [])) :: [] ∧
    ([] : List Byte).length = (0x00 : Byte).toNat * 65536 + (0x00 : Byte).toNat * 256 + (0x00 : Byte).toNat ∧
    6 ≤ (0x06 : Byte).toNat ∧ (0x00 : Byte).toNat = 0 ∧ 0 < State.reset.blocks.length := by decide

/-! ## The machine's statements -/

theorem witness_StepRunsTheDecodedCommand :
    ({ State.reset with inbox := [.command 0 [0x00, 0x00, 0x00, 0x04, 0x00, 0x00, 0x00, 0x05], .powerOn] } : State).inbox =
      .command 0 [0x00, 0x00, 0x00, 0x04, 0x00, 0x00, 0x00, 0x05] :: [.powerOn] ∧
    decodeCommand [0x00, 0x00, 0x00, 0x04, 0x00, 0x00, 0x00, 0x05] = .instr .status [0x00, 0x00, 0x00, 0x05] := by decide
theorem witness_NothingHappensWithoutACommand : State.reset.inbox = [] := rfl
theorem witness_StopsLieOutsideTheBlocks_word :
    ({ State.reset with inbox := [.command 0 [0x00, 0x00, 0x00]] } : State).inbox = .command 0 [0x00, 0x00, 0x00] :: [] ∧
    ([0x00, 0x00, 0x00] : List Byte).length < 4 := by decide
theorem witness_StopsLieOutsideTheBlocks_operand :
    ({ State.reset with inbox := [.command 0 [0x00, 0x00, 0x02, 0x01, 0xAA]] } : State).inbox =
      .command 0 (0x00 :: 0x00 :: 0x02 :: 0x01 :: [0xAA]) :: [] ∧
    ([0xAA] : List Byte).length < (0x00 : Byte).toNat * 65536 + (0x00 : Byte).toNat * 256 + (0x02 : Byte).toNat := by decide
theorem witness_StopsLieOutsideTheBlocks_port :
    ({ State.reset with port := 1 } : State).blocks.length ≤ 1 ∧ State.reset.port < State.reset.blocks.length := by decide
theorem witness_PowerOnResetsEveryInstance :
    ({ dflt .failure [0x11] [] with inbox := [.powerOn] } : State).inbox = .powerOn :: [] := rfl
theorem witness_ResetMeetsTheInvariant : defaultParams.Valid ∧ (depth 65535).Valid ∧ 1 ≤ 1 := by decide
theorem witness_StepKeepsTheInvariant :
    State.Inv { State.reset with inbox := [.command 0 [0x00, 0x00, 0x01, 0x01, 0x7E]] } ∧
    after (step { State.reset with inbox := [.command 0 [0x00, 0x00, 0x01, 0x01, 0x7E]] }) =
      some { dflt .inProgress [0x7E] [] with responses := [(0, oneWord 0x00000000)] } := by decide
theorem witness_ReachableBlocksMeetThePremises :
    Block.Reachable defaultParams ⟨.inProgress, [], [⟨0x03, []⟩]⟩ :=
  ⟨[.instr (.write [0x00, 0x03, 0x00, 0x00]), .instr (.write [])], by decide⟩
theorem witness_StateTransitionsAreTheListedOnes :
    Served (dflt .inProgress [0x7E] []) ⟨.inProgress, [0x7E], []⟩ ∧ (Instr.write []).isCommand = true := ⟨rfl, by decide⟩
theorem witness_FailureIsFrozen :
    Served (dflt .failure [0x11] []) ⟨.failure, [0x11], []⟩ ∧ Instr.next.isCommand = true ∧ Instr.next ≠ .reset :=
  ⟨rfl, by decide, by decide⟩
theorem witness_InstructionsTouchOnlyTheirInstance :
    after (exec .status (State.powerOn defaultParams 2)) =
      some { State.powerOn defaultParams 2 with
        responses := [(0, { word := 0x00000000, words := [0x00000000], bytes := [] })] } := by decide
theorem witness_OtherInstancesHaveNoInfluence :
    Served (State.powerOn defaultParams 2) Block.reset ∧
    Served { params := defaultParams, blocks := [⟨.failure, [], []⟩, Block.reset], port := 1, inbox := [], responses := [] }
      Block.reset := ⟨rfl, rfl⟩
theorem witness_ErrorsChangeOnlyKeptBytes : Served (dflt .inProgress [0x7E] []) ⟨.inProgress, [0x7E], []⟩ := rfl
theorem witness_ResponsesHaveTheirForm :
    Served (dflt .empty [] [⟨0x00, [0xAB]⟩]) ⟨.empty, [], [⟨0x00, [0xAB]⟩]⟩ ∧
    Block.FramesLegal ⟨.empty, [], [⟨0x00, [0xAB]⟩]⟩ := ⟨rfl, by decide⟩
theorem witness_OnlySevenStatusesAreProduced :
    after (step { State.reset with inbox := [.command 0 [0x00, 0x00, 0x00, 0x02]] }) =
      some { State.reset with responses := [(0, oneWord 0x00000003)] } := by decide
theorem witness_NothingReadsEarlierResponses :
    after (step { State.reset with responses := [(0, oneWord 0x00000004)] }) =
      some { State.reset with responses := [(0, oneWord 0x00000004)] } := by decide
theorem witness_FramesLeaveInOrder :
    Served (dflt .empty [] [⟨0x01, []⟩]) ⟨.empty, [], [⟨0x01, []⟩]⟩ ∧
    (∀ i ∈ [Instr.write [0x00, 0x02, 0x00, 0x00], .next], i.isCommand = true ∧ i ≠ .reset) := ⟨rfl, by decide⟩
/-- The hypotheses, and `NoBadHeader` of the run they start. -/
theorem witness_StreamIsReassembledByteForByte :
    Served (dflt .empty [] []) ⟨.empty, [], []⟩ ∧ Block.EmptyClean ⟨.empty, [], []⟩ ∧
    (∀ i ∈ [Instr.write [0x00, 0x02, 0x00, 0x00]], i.isCommand = true ∧ i ≠ .reset) ∧
    seen (execAll [Instr.write [0x00, 0x02, 0x00, 0x00]] (dflt .empty [] [])) =
      some (some ⟨.empty, [], [⟨0x02, []⟩]⟩, [(0, oneWord 0x00000000)]) ∧
    NoBadHeader ([Instr.write [0x00, 0x02, 0x00, 0x00]].zip [oneWord 0x00000000]) := by
  refine ⟨rfl, by decide, by decide, by decide, ?_⟩
  intro data r h
  simp only [List.zip_cons_cons, List.zip_nil_left, List.mem_singleton, Prod.mk.injEq] at h
  exact .inl (by rw [h.2]; decide)

end Sys2Proof.Tests
end

/-! The statements on scope: what a step and an instruction do to the machine, where the model stops, and the invariant
that power-on reset meets and every step keeps (spec/00_scope.md R7 to R11). -/

/-! ## What a step does, equation by equation -/

namespace Sys2Proof.Machine

theorem step_of_no_move {s : State} (h : s.inbox = []) : step s = .next s := by
  simp [step, idle, h]

theorem step_of_instr {s : State} {port : Nat} {bytes rest : List Byte} {more : List Event} {i : Instr}
    (h : s.inbox = .command port bytes :: more) (hd : decodeCommand bytes = .instr i rest) :
    step s = exec i (takeCommand s port rest more) := by
  simp [step, h, hd]

theorem step_of_incomplete {s : State} {port : Nat} {bytes : List Byte} {more : List Event}
    (h : s.inbox = .command port bytes :: more) (hd : decodeCommand bytes = .incomplete) :
    step s = .refused .incompleteCommand := by
  simp [step, incomplete, h, hd]

/-- Fewer bytes than a command word are no whole command (R53). -/
theorem decodeCommand_of_short_word {bytes : List Byte} (h : bytes.length < 4) : decodeCommand bytes = .incomplete := by
  match bytes, h with
  | [], _ | [_], _ | [_, _], _ | [_, _, _], _ => rfl
  | _ :: _ :: _ :: _ :: _, h => simp at h; omega

/-- Fewer operand bytes than LEN announces are no whole command (R53, R54). -/
theorem decodeCommand_of_short_operand {b0 b1 b2 op : Byte} {body : List Byte}
    (h : body.length < b0.toNat * 65536 + b1.toNat * 256 + b2.toNat) :
    decodeCommand (b0 :: b1 :: b2 :: op :: body) = .incomplete := by
  rw [← cmdLen_wordOfBytes b0 b1 b2 op] at h
  simp [decodeCommand, h]

theorem exec_of_absent {i : Instr} {s : State} (h : s.blocks[s.port]? = none) : exec i s = .fault .noSuchInstance := by
  rw [exec_eq_serve, serve_of_absent h]

/-- PARSE is pure: whatever the header, the block stays (R72). -/
@[simp] theorem parseBlock_fst (data : List Byte) (p : Params) (b : Block) : (parseBlock data p b).1 = b := by
  unfold parseBlock
  cases parseHeader p.delim data <;> rfl

/-! ## The Header Parser's errors on the two paths of WRITE -/

section errors
variable {p : Params} {b : Block} {buf : List Byte} {e : HeaderError}

/-- Empty path, header error: the chunk is dropped (R77). -/
theorem writeEmpty_error (hp : parseHeader p.delim buf = .error e) :
    writeEmpty buf p b = (b, errResponse (mapErr e)) := by
  simp [writeEmpty, hp, raise]

/-- InProgress path, header error: the appended bytes are kept (R81). -/
theorem writeInProgress_error (hp : parseHeader p.delim buf = .error e) :
    writeInProgress buf p b =
      capCheck p b { b with state := .inProgress, pending := buf } (errResponse (mapErr e)) := by
  simp [writeInProgress, hp]

end errors

/-! ## Every rule for one block keeps it good -/

section good
variable {p : Params} {b : Block}

theorem reset_good (p : Params) : Block.reset.Good p :=
  ⟨by simp, fun _ => rfl, fun _ => ⟨Nat.zero_le _, Nat.zero_le _⟩, fun _ hf => absurd hf List.not_mem_nil⟩

/-- The capacity check supplies the caps, so a candidate needs only the rest of `Block.Good` (R85). -/
theorem capCheck_good {new : Block} (hb : b.Good p) (hn : new.NotFailed) (he : new.EmptyClean) (hf : new.FramesLegal)
    (r : Response) : (capCheck p b new r).1.Good p := by
  obtain ⟨hc, h⟩ | ⟨-, h⟩ := capCheck_cases p b new r
  · rw [h]; exact ⟨hn, he, (overCaps_eq_false_iff p new).1 hc, hf⟩
  · rw [h]; exact hb

/-- A candidate in Empty with nothing pending need only hold legal frames. -/
theorem capCheck_empty_good {decoded : List Frame} (hb : b.Good p)
    (hf : ∀ f ∈ decoded, f.payload.length ≤ Config.maxPayload) (r : Response) :
    (capCheck p b { state := .empty, pending := [], decoded := decoded } r).1.Good p :=
  capCheck_good hb (by simp) (by simp) hf r

/-- A candidate in InProgress need only hold legal frames, since `Block.EmptyClean` does not speak of it. -/
theorem capCheck_inProgress_good {pending : List Byte} {decoded : List Frame} (hb : b.Good p)
    (hf : ∀ f ∈ decoded, f.payload.length ≤ Config.maxPayload) (r : Response) :
    (capCheck p b { state := .inProgress, pending := pending, decoded := decoded } r).1.Good p :=
  capCheck_good hb (by simp) (by simp) hf r

/-- A payload whose length two size bytes give is a legal frame's (R19), so pushing it keeps the queue legal. -/
theorem framesLegal_push {tag hi lo : Byte} {payload : List Byte} (hb : b.FramesLegal)
    (hs : payload.length = hi.toNat * 256 + lo.toNat) :
    ∀ f ∈ b.decoded ++ [⟨tag, payload⟩], f.payload.length ≤ Config.maxPayload := by
  have hhi := hi.isLt
  have hlo := lo.isLt
  have hp : payload.length ≤ Config.maxPayload := by unfold Config.maxPayload; omega
  exact List.forall_mem_append.2 ⟨hb, by simpa using hp⟩

theorem writeEmpty_good (data : List Byte) (hb : b.Good p) (he : b.state = .empty) : (writeEmpty data p b).1.Good p := by
  obtain ⟨-, hclean, -, hlegal⟩ := id hb
  cases bufferForm p.delim data with
  | short _ hp => rw [writeEmpty_error hp]; exact hb
  | mismatch _ _ _ _ _ hp => rw [writeEmpty_error hp]; exact hb
  | equal tag hi lo payload hd hs =>
    rw [hd, writeEmpty_equal hs, hclean he]
    exact capCheck_empty_good hb (framesLegal_push hlegal hs) _
  | less tag hi lo part hd hs => rw [hd, writeEmpty_less hs]; exact capCheck_inProgress_good hb hlegal _
  | greater tag hi lo payload tail hd hs ht =>
    rw [hd, writeEmpty_greater hs ht]
    exact capCheck_inProgress_good hb (framesLegal_push hlegal hs) _

theorem writeInProgress_good (buf : List Byte) (hb : b.Good p) : (writeInProgress buf p b).1.Good p := by
  obtain ⟨-, -, -, hlegal⟩ := id hb
  cases bufferForm p.delim buf with
  | short _ hp => rw [writeInProgress_error hp]; exact capCheck_inProgress_good hb hlegal _
  | mismatch _ _ _ _ _ hp => rw [writeInProgress_error hp]; exact capCheck_inProgress_good hb hlegal _
  | equal tag hi lo payload hd hs =>
    rw [hd, writeInProgress_equal hs]
    exact capCheck_empty_good hb (framesLegal_push hlegal hs) _
  | less tag hi lo part hd hs => rw [hd, writeInProgress_less hs]; exact capCheck_inProgress_good hb hlegal _
  | greater tag hi lo payload tail hd hs ht =>
    rw [hd, writeInProgress_greater hs ht]
    exact capCheck_inProgress_good hb (framesLegal_push hlegal hs) _

theorem writeBlock_good (data : List Byte) (hb : b.Good p) : (writeBlock data p b).1.Good p := by
  obtain ⟨-, -, -, hlegal⟩ := id hb
  obtain ⟨-, h⟩ | ⟨-, -, h⟩ | ⟨he, -, h⟩ | ⟨-, -, h⟩ := writeBlock_cases data p b <;> rw [h]
  · exact hb
  · exact capCheck_inProgress_good hb hlegal _
  · exact writeEmpty_good data hb he
  · exact writeInProgress_good _ hb

/-- NEXT only shortens the queue (R91). -/
theorem nextBlock_good (hb : b.Good p) : (nextBlock p b).1.Good p := by
  obtain ⟨hn, hclean, hcaps, hlegal⟩ := id hb
  cases hq : b.decoded with
  | nil => simpa [nextBlock, hn, hq, raise] using hb
  | cons f q =>
    have h : (nextBlock p b).1 = { b with decoded := q } := by simp [nextBlock, hn, hq]
    rw [h]
    refine ⟨hn, hclean, fun hm => ?_, fun g hg => hlegal g (hq ▸ List.mem_cons_of_mem f hg)⟩
    obtain ⟨hp, hd⟩ := hcaps hm
    rw [hq, List.length_cons] at hd
    exact ⟨hp, Nat.le_of_succ_le hd⟩

/-- Every instruction keeps the block it is served on good. -/
theorem instrBlock_good (i : Instr) (hb : b.Good p) : (instrBlock i p b).1.Good p := by
  cases i with
  | write data => exact writeBlock_good data hb
  | next => exact nextBlock_good hb
  | parse data => rw [instrBlock, parseBlock_fst]; exact hb
  | status => exact hb
  | reset => exact reset_good p
  | frame tag payload => exact writeBlock_good (encodeFrame p.delim tag payload) hb

end good

/-! ## The machine's invariant -/

/-- Serving a rule that keeps a block good keeps the invariant. -/
theorem serve_keeps_inv {s t : State} {rule : Params → Block → Block × Response}
    (hrule : ∀ p b, b.Good p → (rule p b).1.Good p) (hs : s.Inv) (h : serve s rule = .next t) : t.Inv := by
  obtain ⟨hvalid, hlen, hgood⟩ := hs
  obtain ⟨b, hb, rfl⟩ := serve_next h
  refine ⟨hvalid, by simpa using hlen, fun b' hb' => ?_⟩
  obtain hold | rfl := List.mem_or_eq_of_mem_set hb'
  · exact hgood b' hold
  · exact hrule s.params b (hgood b (List.mem_of_getElem? hb))

theorem takeCommand_inv {s : State} (hs : s.Inv) (port : Nat) (rest : List Byte) (more : List Event) :
    (takeCommand s port rest more).Inv := hs

/-- A machine with legal parameters whose blocks, one or more, are all just reset meets the invariant. -/
theorem inv_of_all_reset {s : State} (hp : s.params.Valid) (hlen : 1 ≤ s.blocks.length)
    (h : ∀ b ∈ s.blocks, b = Block.reset) : s.Inv :=
  ⟨hp, hlen, fun b hb => h b hb ▸ reset_good s.params⟩

theorem powerOn_inv {p : Params} {n : Nat} (hp : p.Valid) (hn : 1 ≤ n) : (State.powerOn p n).Inv :=
  inv_of_all_reset hp (by simpa using hn) (fun _ hb => List.eq_of_mem_replicate hb)

theorem defaultParams_valid : defaultParams.Valid := by decide

/-- Settles O41, by the four things a step can do: nothing, power-on reset, a defined command, a reserved one. -/
theorem stepKeepsTheInvariant : Obligations.StepKeepsTheInvariant := by
  intro s t hs h
  obtain ⟨-, rfl⟩ | ⟨more, -, rfl⟩ | ⟨port, _, more, i, rest, -, -, h⟩ | ⟨port, _, more, _, _, rest, -, -, h⟩ :=
    step_cases h
  · exact hs
  · obtain ⟨hvalid, hlen, -⟩ := hs
    exact inv_of_all_reset hvalid (by simpa using hlen) (by simp)
  · rw [exec_eq_serve] at h
    exact serve_keeps_inv (fun _ _ => instrBlock_good i) (takeCommand_inv hs port rest more) h
  · exact serve_keeps_inv (fun _ _ hb => hb) (takeCommand_inv hs port rest more) h

/-- Settles O45: an instruction is an answer of the served block, and PARSE and STATUS put back the block they read. -/
theorem instructionsTouchOnlyTheirInstance : Obligations.InstructionsTouchOnlyTheirInstance := by
  intro i s t h
  obtain ⟨b, hb, rfl⟩ := exec_next h
  refine ⟨rfl, rfl, rfl, by simp, fun k hk => State.answer_other s _ _ hk, ⟨_, rfl⟩, ?_⟩
  rintro (⟨data, rfl⟩ | rfl)
  · simp [instrBlock, set_served hb]
  · simp [instrBlock, statusBlock, set_served hb]

/-- Settles O46: both answers are the instruction's rule for one block at the common parameters. -/
theorem otherInstancesHaveNoInfluence : Obligations.OtherInstancesHaveNoInfluence := by
  intro i s₁ s₂ b h₁ h₂ hp
  refine ⟨(instrBlock i s₁.params b).1, (instrBlock i s₁.params b).2, exec_of_served h₁, ?_⟩
  rw [hp]
  exact exec_of_served h₂

/-- Settles O35. -/
theorem stepRunsTheDecodedCommand : Obligations.StepRunsTheDecodedCommand := by
  intro s port bytes rest more i h hd
  rw [step_of_instr h hd, takeCommand, requeue_eq]

/-- Settles O36. -/
theorem nothingHappensWithoutACommand : Obligations.NothingHappensWithoutACommand :=
  fun _ => step_of_no_move

/-- Settles O37: a short word and a short operand decode to no command, and an instruction stops only where no block sits
behind the port. -/
theorem stopsLieOutsideTheBlocks : Obligations.StopsLieOutsideTheBlocks := by
  refine ⟨fun s port bytes more h hshort => step_of_incomplete h ?_, fun i s h => ?_, fun i s h => ?_⟩
  · obtain hw | ⟨b0, b1, b2, op, body, rfl, hbody⟩ := hshort
    · exact decodeCommand_of_short_word hw
    · exact decodeCommand_of_short_operand hbody
  · exact exec_of_absent (List.getElem?_eq_none h)
  · exact ⟨_, exec_of_served (List.getElem?_eq_getElem h)⟩

/-- Settles O40. -/
theorem resetMeetsTheInvariant : Obligations.ResetMeetsTheInvariant :=
  ⟨powerOn_inv defaultParams_valid (Nat.le_refl 1), fun _ _ => powerOn_inv⟩

end Sys2Proof.Machine

/-! The statements on the state of a block: what it holds after reset, how STATE moves, what every run from reset keeps, and
the stream's way through PENDING and DECODED (spec/10_state.md R15 to R33). -/

namespace Sys2Proof.Machine

open Sys2Proof.Cert

/-! ## Responses: the status field, and what a response counts for in a run -/

@[simp] theorem errResponse_status (code : Status) : (errResponse code).word.extractLsb' 0 8 = statusCode code :=
  rspWord_status 0 0 code

@[simp] theorem okResponse_status : okResponse.word.extractLsb' 0 8 = 0x00#8 :=
  rspWord_status 0 0 .ok

@[simp] theorem frameResponse_status (f : Frame) : (frameResponse f).word.extractLsb' 0 8 = 0x00#8 :=
  rspWord_status _ _ .ok

@[simp] theorem frameResponse_tag (f : Frame) : (frameResponse f).word.extractLsb' 8 8 = f.tag :=
  rspWord_mid _ _ .ok

@[simp] theorem frameResponse_bytes (f : Frame) : (frameResponse f).bytes = f.payload := rfl

@[simp] theorem statusCode_eq_zero_iff (code : Status) : statusCode code = 0x00#8 ↔ code = .ok := by
  cases code <;> decide

/-- An error word that `NoBadHeader` admits is the one of StreamBytesFull. -/
theorem eq_streamBytesFull_of_word {code : Status} (hc : code ≠ .ok)
    (h : (errResponse code).word = 0x00000000#32 ∨ (errResponse code).word = 0x00000005#32) :
    code = .streamBytesFull := by
  revert hc h
  cases code <;> decide

/-! ## A run's record, one command at a time -/

theorem taken_cons (x : Instr × Response) (run : List (Instr × Response)) : taken (x :: run) = taken [x] ++ taken run := by
  obtain ⟨i, r⟩ := x
  cases i with
  | next => by_cases h : r.word.extractLsb' 0 8 = 0x00#8 <;> simp [taken, h]
  | write _ | parse _ | status | reset | frame _ _ => rfl

theorem fed_cons (x : Instr × Response) (run : List (Instr × Response)) : fed (x :: run) = fed [x] ++ fed run := by
  obtain ⟨i, r⟩ := x
  cases i with
  | write data => by_cases h : r.word.extractLsb' 0 8 = 0x00#8 <;> simp [fed, h]
  | next | parse _ | status | reset | frame _ _ => rfl

theorem noBadHeader_cons {x : Instr × Response} {run : List (Instr × Response)} (h : NoBadHeader (x :: run)) :
    NoBadHeader [x] ∧ NoBadHeader run :=
  ⟨fun data r hm => h data r (by simpa using .inl (List.mem_singleton.1 hm)),
    fun data r hm => h data r (List.mem_cons_of_mem x hm)⟩

/-! ## Sequences of instructions on the served block -/

/-- The instructions one after the other on one block: its last state, and the responses. -/
def runInstrs (p : Params) (b : Block) (is : List Instr) : Block × List Response :=
  runBlock p b (is.map Command.instr)

section runInstrs
variable (p : Params) (b : Block) (i : Instr) (is : List Instr)

@[simp] theorem runInstrs_nil : runInstrs p b [] = (b, []) := rfl

@[simp] theorem runInstrs_cons_fst : (runInstrs p b (i :: is)).1 = (runInstrs p (instrBlock i p b).1 is).1 := rfl

@[simp] theorem runInstrs_cons_snd :
    (runInstrs p b (i :: is)).2 = (instrBlock i p b).2 :: (runInstrs p (instrBlock i p b).1 is).2 := rfl

theorem length_runInstrs : (runInstrs p b is).2.length = is.length := by
  induction is generalizing b with
  | nil => rfl
  | cons i is ih => simp [ih]

end runInstrs

/-- Where a block sits behind the port, any instructions complete, and do to that block and answer what `runInstrs` says. -/
theorem execAll_of_served {s : State} {b : Block} (h : Served s b) (is : List Instr) :
    ∃ t, execAll is s = .next t ∧ Served t (runInstrs s.params b is).1 ∧
      t.responses = s.responses ++ (runInstrs s.params b is).2.map (fun r => (s.port, r)) := by
  induction is generalizing s b with
  | nil => exact ⟨s, rfl, h, by simp⟩
  | cons i is ih =>
    obtain ⟨t, hexec, hserved, hresp⟩ := ih (State.answer_served h (instrBlock i s.params b).1 (instrBlock i s.params b).2)
    exact ⟨t, (execAll_cons_of_next (exec_of_served h)).trans hexec, hserved, by simpa using hresp⟩

/-- One instruction completes wherever a block sits behind the port. -/
theorem answers_of_served {s : State} {b : Block} (h : Served s b) (i : Instr) :
    Answers i s (instrBlock i s.params b).1 (instrBlock i s.params b).2 :=
  exec_of_served h

/-! ## Everything WRITE and NEXT can do to a block, as effects on the stream it holds -/

/-- The wire bytes of a frame whose size bytes are `hi` and `lo` (R47). -/
theorem wire_mk (delim tag : Byte) {hi lo : Byte} {payload : List Byte}
    (hs : payload.length = hi.toNat * 256 + lo.toNat) :
    wire delim ⟨tag, payload⟩ = delim :: tag :: hi :: lo :: payload := by
  have hhi := hi.isLt
  have hlo := lo.isLt
  have h1 : BitVec.ofNat 8 (payload.length / 256) = hi := BitVec.eq_of_toNat_eq (by rw [BitVec.toNat_ofNat]; omega)
  have h2 : BitVec.ofNat 8 payload.length = lo := BitVec.eq_of_toNat_eq (by rw [BitVec.toNat_ofNat]; omega)
  rw [wire, h1, h2]

/-- What the branches of WRITE (R74 to R85) have in common: the next block and the response, by what becomes of the chunk. -/
inductive WriteEffect (p : Params) (b : Block) (data : List Byte) : Block × Response → Prop where
  /-- The chunk is dropped with an error: R74, R77, R85. -/
  | dropped {code : Status} (hc : code ≠ .ok) : WriteEffect p b data (b, errResponse code)
  /-- The chunk is kept behind a bad header: R81. -/
  | keptBad {code : Status} (hs : b.state = .inProgress) (hc : code ≠ .ok) (hfull : code ≠ .streamBytesFull) :
      WriteEffect p b data ({ b with state := .inProgress, pending := b.pending ++ data }, errResponse code)
  /-- The chunk is kept and no frame is complete: R75, R79, R83. -/
  | kept (hs : b.state ≠ .failure) :
      WriteEffect p b data ({ b with state := .inProgress, pending := b.pending ++ data }, okResponse)
  /-- One frame is queued and the rest is pending: R78, R80, R82, R84. -/
  | queued {st : EngineState} {rest : List Byte} {f : Frame} (hs : b.state ≠ .failure) (hst : st ≠ .failure)
      (hclean : b.EmptyClean → (st = .empty → rest = []) ∧ b.pending ++ data = wire p.delim f ++ rest) :
      WriteEffect p b data ({ state := st, pending := rest, decoded := b.decoded ++ [f] }, okResponse)

section write
variable {p : Params} {b : Block} {data : List Byte}

/-- The capacity check adds only the outcome that the chunk is dropped (R85). -/
theorem capCheck_effect {new : Block} {r : Response} (h : WriteEffect p b data (new, r)) :
    WriteEffect p b data (capCheck p b new r) := by
  obtain ⟨-, hcap⟩ | ⟨-, hcap⟩ := capCheck_cases p b new r <;> rw [hcap]
  · exact h
  · exact .dropped (by decide)

theorem mapErr_ne_ok (e : HeaderError) : mapErr e ≠ .ok := by cases e <;> decide

theorem mapErr_ne_streamBytesFull (e : HeaderError) : mapErr e ≠ .streamBytesFull := by cases e <;> decide

theorem writeEmpty_effect (he : b.state = .empty) : WriteEffect p b data (writeEmpty data p b) := by
  have hs : b.state ≠ .failure := by simp [he]
  cases bufferForm p.delim data with
  | short _ hp => rw [writeEmpty_error hp]; exact .dropped (mapErr_ne_ok _)
  | mismatch _ _ _ _ _ hp => rw [writeEmpty_error hp]; exact .dropped (mapErr_ne_ok _)
  | equal tag hi lo payload hd hl =>
    subst hd
    rw [writeEmpty_equal hl]
    exact capCheck_effect (.queued hs (by decide) fun hc => ⟨fun _ => hc he, by simp [hc he, wire_mk p.delim tag hl]⟩)
  | less tag hi lo part hd hl => subst hd; rw [writeEmpty_less hl]; exact capCheck_effect (.kept hs)
  | greater tag hi lo payload tail hd hl ht =>
    subst hd
    rw [writeEmpty_greater hl ht]
    exact capCheck_effect (.queued hs (by decide) fun hc => ⟨by simp, by simp [hc he, wire_mk p.delim tag hl]⟩)

theorem writeInProgress_effect (hi : b.state = .inProgress) :
    WriteEffect p b data (writeInProgress (b.pending ++ data) p b) := by
  have hs : b.state ≠ .failure := by simp [hi]
  have hbad (e : HeaderError) := WriteEffect.keptBad (p := p) (data := data) hi (mapErr_ne_ok e) (mapErr_ne_streamBytesFull e)
  cases bufferForm p.delim (b.pending ++ data) with
  | short _ hp => rw [writeInProgress_error hp]; exact capCheck_effect (hbad _)
  | mismatch _ _ _ _ _ hp => rw [writeInProgress_error hp]; exact capCheck_effect (hbad _)
  | equal tag hi lo payload hd hl =>
    rw [hd, writeInProgress_equal hl]
    exact capCheck_effect (.queued hs (by decide) fun _ => ⟨fun _ => rfl, by simp [hd, wire_mk p.delim tag hl]⟩)
  | less tag hi lo part hd hl =>
    rw [hd, writeInProgress_less hl, ← hd]
    exact capCheck_effect (.kept hs)
  | greater tag hi lo payload tail hd hl ht =>
    rw [hd, writeInProgress_greater hl ht]
    exact capCheck_effect (.queued hs (by decide) fun _ => ⟨by simp, by simp [hd, wire_mk p.delim tag hl]⟩)

theorem writeBlock_effect (data : List Byte) (p : Params) (b : Block) : WriteEffect p b data (writeBlock data p b) := by
  obtain ⟨-, h⟩ | ⟨hs, -, h⟩ | ⟨he, -, h⟩ | ⟨hi, -, h⟩ := writeBlock_cases data p b <;> rw [h]
  · exact .dropped (by decide)
  · exact capCheck_effect (.kept hs)
  · exact writeEmpty_effect he
  · exact writeInProgress_effect hi

theorem self_mem_writeTransitions (st : EngineState) : (st, st) ∈ writeTransitions := by
  cases st <;> decide

/-- Outside Failure every transition is one of R17's. -/
theorem mem_writeTransitions {st st' : EngineState} (h : st ≠ .failure) (h' : st' ≠ .failure) :
    (st, st') ∈ writeTransitions := by
  revert h h'
  cases st <;> cases st' <;> decide

/-- WRITE moves STATE only as R17 lists. -/
theorem WriteEffect.transition {b' : Block} {r : Response} (h : WriteEffect p b data (b', r)) :
    (b.state, b'.state) ∈ writeTransitions := by
  cases h with
  | dropped => exact self_mem_writeTransitions b.state
  | keptBad hs => exact mem_writeTransitions (by simp [hs]) (by simp)
  | kept hs => exact mem_writeTransitions hs (by simp)
  | queued hs hst => exact mem_writeTransitions hs hst

/-- WRITE queues at most one frame, at the tail (R20, R86). -/
theorem WriteEffect.pushes {b' : Block} {r : Response} (h : WriteEffect p b data (b', r)) :
    ∃ pushed, b'.decoded = b.decoded ++ pushed ∧ pushed.length ≤ 1 := by
  cases h with
  | dropped | keptBad | kept => exact ⟨[], by simp⟩
  | @queued _ _ f => exact ⟨[f], rfl, le_rfl⟩

theorem WriteEffect.emptyClean {b' : Block} {r : Response} (h : WriteEffect p b data (b', r)) (hc : b.EmptyClean) :
    b'.EmptyClean := by
  cases h with
  | dropped => exact hc
  | keptBad | kept => exact fun he => nomatch he
  | queued _ _ hclean => exact (hclean hc).1

/-- A WRITE that met no bad header adds exactly the bytes it took to the bytes held (R28, R30). -/
theorem WriteEffect.conserves {b' : Block} {r : Response} (h : WriteEffect p b data (b', r)) (hc : b.EmptyClean)
    (hr : r.word = 0x00000000#32 ∨ r.word = 0x00000005#32) :
    held p.delim b ++ fed [(.write data, r)] = held p.delim b' := by
  cases h with
  | dropped hcode => simp [fed, hcode]
  | keptBad _ hcode hfull => exact absurd (eq_streamBytesFull_of_word hcode hr) hfull
  | kept => simp [fed, held]
  | queued _ _ hclean => simp [fed, held, (hclean hc).2]

end write

section next
variable (p : Params) (b : Block)

/-- Everything NEXT can do: report an error and change nothing, or take the head of the queue (R91, R92). -/
theorem nextBlock_cases :
    (∃ code, code ≠ .ok ∧ nextBlock p b = (b, errResponse code)) ∨
    (∃ f q, b.decoded = f :: q ∧ nextBlock p b = ({ b with decoded := q }, frameResponse f)) := by
  by_cases hs : b.state = .failure
  · exact .inl ⟨.streamFailure, by decide, by simp [nextBlock, hs, raise]⟩
  · cases hq : b.decoded with
    | nil => exact .inl ⟨.streamMessageCountZero, by decide, by simp [nextBlock, hs, hq, raise]⟩
    | cons f q => exact .inr ⟨f, q, rfl, by simp [nextBlock, hs, hq]⟩

@[simp] theorem nextBlock_state : (nextBlock p b).1.state = b.state := by
  obtain ⟨_, -, h⟩ | ⟨_, _, -, h⟩ := nextBlock_cases p b <;> rw [h]

@[simp] theorem nextBlock_pending : (nextBlock p b).1.pending = b.pending := by
  obtain ⟨_, -, h⟩ | ⟨_, _, -, h⟩ := nextBlock_cases p b <;> rw [h]

/-- What NEXT returned is what left the head of the queue (R20, R91). -/
theorem taken_nextBlock : taken [(.next, (nextBlock p b).2)] ++ (nextBlock p b).1.decoded = b.decoded := by
  obtain ⟨code, hc, h⟩ | ⟨f, q, hq, h⟩ := nextBlock_cases p b <;> rw [h]
  · simp [taken, hc]
  · simp [taken, hq]

end next

/-! ## Failure -/

section failure
variable {p : Params} {b : Block}

theorem writeBlock_of_failure (hf : b.state = .failure) (data : List Byte) :
    writeBlock data p b = (b, errResponse .streamFailure) := by
  simp [writeBlock, hf, raise]

theorem nextBlock_of_failure (hf : b.state = .failure) : nextBlock p b = (b, errResponse .streamFailure) := by
  simp [nextBlock, hf, raise]

end failure

/-! ## Reachable blocks -/

/-- Every command, a reserved one included, keeps a block good. -/
theorem blockStep_good {p : Params} {b : Block} (hb : b.Good p) (c : Command) : (blockStep p b c).1.Good p := by
  cases c with
  | instr i => exact instrBlock_good i hb
  | reserved op operand => exact hb

theorem runBlock_good {p : Params} {b : Block} (hb : b.Good p) (cs : List Command) : (runBlock p b cs).1.Good p := by
  induction cs generalizing b with
  | nil => exact hb
  | cons c cs ih => exact ih (blockStep_good hb c)

theorem Block.Reachable.good {p : Params} {b : Block} (h : b.Reachable p) : b.Good p := by
  obtain ⟨cs, rfl⟩ := h
  exact runBlock_good (reset_good p) cs

/-! ## First in, first out -/

/-- The commands that can queue a frame (R86). -/
def isWrite : Instr → Bool
  | .write _ => true
  | _ => false

/-- FIFO for one command: what NEXT returned and what is still queued are what was queued and what WRITE pushed. -/
theorem instrBlock_fifo {i : Instr} (hi : i.isCommand = true ∧ i ≠ .reset) (p : Params) (b : Block) :
    ∃ pushed, taken [(i, (instrBlock i p b).2)] ++ (instrBlock i p b).1.decoded = b.decoded ++ pushed ∧
      pushed.length ≤ ([i].filter isWrite).length := by
  obtain ⟨hcmd, hreset⟩ := hi
  cases i with
  | write data => exact (writeBlock_effect data p b).pushes
  | next => exact ⟨[], (taken_nextBlock p b).trans (List.append_nil _).symm, le_rfl⟩
  | parse data => exact ⟨[], by simp [instrBlock, taken], le_rfl⟩
  | status => exact ⟨[], by simp [instrBlock, statusBlock, taken], le_rfl⟩
  | reset => exact absurd rfl hreset
  | frame tag payload => cases hcmd

theorem runInstrs_fifo (p : Params) (b : Block) (is : List Instr) (his : ∀ i ∈ is, i.isCommand = true ∧ i ≠ .reset) :
    ∃ pushed, taken (is.zip (runInstrs p b is).2) ++ (runInstrs p b is).1.decoded = b.decoded ++ pushed ∧
      pushed.length ≤ (is.filter isWrite).length := by
  induction is generalizing b with
  | nil => exact ⟨[], by simp [taken], le_rfl⟩
  | cons i is ih =>
    obtain ⟨hi, his⟩ := List.forall_mem_cons.1 his
    obtain ⟨first, hfirst, hlen₁⟩ := instrBlock_fifo hi p b
    obtain ⟨later, hlater, hlen₂⟩ := ih (instrBlock i p b).1 his
    refine ⟨first ++ later, ?_, ?_⟩
    · rw [runInstrs_cons_fst, runInstrs_cons_snd, List.zip_cons_cons, taken_cons, List.append_assoc, hlater,
        ← List.append_assoc, hfirst, List.append_assoc]
    · have hsplit : (i :: is).filter isWrite = [i].filter isWrite ++ is.filter isWrite :=
        List.filter_append (p := isWrite) [i] is
      rw [hsplit, List.length_append, List.length_append]
      exact Nat.add_le_add hlen₁ hlen₂

/-! ## Reassembly -/

/-- Conservation for one command: from a clean block, and with no bad header, what was held and what was fed are what was
taken and what is held, and the block stays clean. -/
theorem instrBlock_conserves {p : Params} {b : Block} {i : Instr} (hi : i.isCommand = true ∧ i ≠ .reset)
    (hc : b.EmptyClean) :
    (instrBlock i p b).1.EmptyClean ∧
      (NoBadHeader [(i, (instrBlock i p b).2)] →
        held p.delim b ++ fed [(i, (instrBlock i p b).2)] =
          (taken [(i, (instrBlock i p b).2)]).flatMap (wire p.delim) ++ held p.delim (instrBlock i p b).1) := by
  obtain ⟨hcmd, hreset⟩ := hi
  cases i with
  | write data =>
    have h := writeBlock_effect data p b
    exact ⟨h.emptyClean hc, fun hok => h.conserves hc (hok data _ (List.mem_singleton.2 rfl))⟩
  | next =>
    refine ⟨by simpa [instrBlock, Block.EmptyClean] using hc, fun _ => ?_⟩
    simp [instrBlock, fed, held, ← taken_nextBlock p b]
  | parse data => exact ⟨by simpa [instrBlock] using hc, fun _ => by simp [instrBlock, fed, taken]⟩
  | status => exact ⟨hc, fun _ => by simp [instrBlock, statusBlock, fed, taken]⟩
  | reset => exact absurd rfl hreset
  | frame tag payload => cases hcmd

theorem runInstrs_conserves {p : Params} {b : Block} (hc : b.EmptyClean) (is : List Instr)
    (his : ∀ i ∈ is, i.isCommand = true ∧ i ≠ .reset) (hok : NoBadHeader (is.zip (runInstrs p b is).2)) :
    held p.delim b ++ fed (is.zip (runInstrs p b is).2) =
      (taken (is.zip (runInstrs p b is).2)).flatMap (wire p.delim) ++ held p.delim (runInstrs p b is).1 := by
  induction is generalizing b with
  | nil => simp [fed, taken]
  | cons i is ih =>
    obtain ⟨hi, his⟩ := List.forall_mem_cons.1 his
    rw [runInstrs_cons_snd, List.zip_cons_cons] at hok ⊢
    obtain ⟨hok₁, hok₂⟩ := noBadHeader_cons hok
    obtain ⟨hc', hstep⟩ := instrBlock_conserves hi hc
    rw [fed_cons, taken_cons, runInstrs_cons_fst, ← List.append_assoc, hstep hok₁, List.append_assoc, ih hc' his hok₂,
      List.flatMap_append, List.append_assoc]

/-! ## The record of earlier responses -/

/-- The computation only adds to the record of responses, and does not read it (R24). -/
def IgnoresResponses (run : State → Host.Outcome State Fault Refusal) : Prop :=
  ∀ s t : State, run s = .next t →
    ∃ new, t.responses = s.responses ++ new ∧
      ∀ rs, run { s with responses := rs } = .next { t with responses := rs ++ new }

theorem serve_ignoresResponses (rule : Params → Block → Block × Response) : IgnoresResponses (serve · rule) := by
  intro s t h
  obtain ⟨b, hb, rfl⟩ := serve_next h
  exact ⟨_, rfl, fun rs => serve_of_served (s := { s with responses := rs }) hb rule⟩

theorem step_of_powerOn {s : State} {more : List Event} (h : s.inbox = .powerOn :: more) :
    step s = .next { s with blocks := s.blocks.map (fun _ => Block.reset), inbox := more } := by
  simp [step, powerCycle, h]

theorem step_of_reserved {s : State} {port : Nat} {bytes operand rest : List Byte} {more : List Event} {op : Byte}
    (h : s.inbox = .command port bytes :: more) (hd : decodeCommand bytes = .reserved op operand rest) :
    step s = execReserved op operand (takeCommand s port rest more) := by
  simp [step, h, hd]

/-! ## The statements -/

/-- Settles O42: a reachable block is good, since the reset block is and every command keeps it so. -/
theorem reachableBlocksMeetThePremises : Obligations.ReachableBlocksMeetThePremises := by
  intro p b h
  obtain ⟨hstate, hclean, hcaps, -⟩ := h.good
  exact ⟨hstate, hclean, hcaps⟩

/-- Settles O52, by conservation of the bytes held along the run of the served block. -/
theorem streamIsReassembledByteForByte : Obligations.StreamIsReassembledByteForByte := by
  intro is s b h hc his
  obtain ⟨t, hexec, hserved, hresp⟩ := execAll_of_served h is
  exact ⟨t, _, _, hexec, hserved, length_runInstrs s.params b is, hresp, runInstrs_conserves hc is his⟩

/-- Settles O43: WRITE by what can become of its chunk, the other commands by what they do to the block. -/
theorem stateTransitionsAreTheListedOnes : Obligations.StateTransitionsAreTheListedOnes := by
  intro i s b h _
  refine ⟨_, _, answers_of_served h i, ?_⟩
  cases i with
  | write data => exact (writeBlock_effect data s.params b).transition
  | next => exact nextBlock_state s.params b
  | parse data => exact congrArg Block.state (parseBlock_fst data s.params b)
  | status | reset => rfl
  | frame tag payload => trivial

/-- Settles O44, command by command. -/
theorem failureIsFrozen : Obligations.FailureIsFrozen := by
  intro s b h hf
  refine ⟨fun i hcmd hreset => ?_, fun op operand => ?_⟩
  · have hans := answers_of_served h i
    cases i with
    | write data =>
      rw [instrBlock, writeBlock_of_failure hf] at hans
      exact ⟨_, hans, fun _ => rfl⟩
    | next =>
      rw [instrBlock, nextBlock_of_failure hf] at hans
      exact ⟨_, hans, fun _ => rfl⟩
    | parse data =>
      rw [instrBlock, parseBlock_fst] at hans
      exact ⟨_, hans, by simp⟩
    | status => exact ⟨_, hans, by simp⟩
    | reset => exact absurd rfl hreset
    | frame tag payload => cases hcmd
  · have hserve : execReserved op operand s = .next (s.answer b (errResponse .unknown)) := serve_of_served h reservedBlock
    rw [hserve, State.answer, set_served h]
    rfl

/-- Settles O50, by the four things a step can do. -/
theorem nothingReadsEarlierResponses : Obligations.NothingReadsEarlierResponses := by
  intro s t h
  obtain ⟨hi, rfl⟩ | ⟨_, hi, rfl⟩ | ⟨_, _, _, i, _, hi, hd, h⟩ | ⟨_, _, _, _, _, _, hi, hd, h⟩ := step_cases h
  · exact ⟨[], by simp, fun rs => by simpa using step_of_no_move (s := { t with responses := rs }) hi⟩
  · exact ⟨[], by simp, fun rs => by simpa using step_of_powerOn (s := { s with responses := rs }) hi⟩
  · rw [exec_eq_serve] at h
    obtain ⟨new, hnew, hrun⟩ := serve_ignoresResponses (instrBlock i) _ _ h
    refine ⟨new, hnew, fun rs => ?_⟩
    rw [step_of_instr (s := { s with responses := rs }) hi hd, exec_eq_serve]
    exact hrun rs
  · obtain ⟨new, hnew, hrun⟩ := serve_ignoresResponses reservedBlock _ _ h
    exact ⟨new, hnew, fun rs => (step_of_reserved (s := { s with responses := rs }) hi hd).trans (hrun rs)⟩

/-- Settles O51, by the FIFO law along the run of the served block. -/
theorem framesLeaveInOrder : Obligations.FramesLeaveInOrder := by
  intro is s b h his
  obtain ⟨t, hexec, hserved, hresp⟩ := execAll_of_served h is
  obtain ⟨pushed, hfifo, hlen⟩ := runInstrs_fifo s.params b is his
  exact ⟨t, _, _, pushed, hexec, hserved, length_runInstrs s.params b is, hresp, hfifo, hlen⟩

/-- Settles O39. -/
theorem resetStateIsTheSpecs : Obligations.ResetStateIsTheSpecs :=
  ⟨fun _ _ => ⟨rfl, rfl⟩, rfl, rfl, rfl, rfl, rfl⟩

end Sys2Proof.Machine

/-! The statements on memory: the byte view and the word view of a frame header (spec/20_memory.md R38,
spec/30_encoding.md R48). -/

namespace Sys2Proof

/-! ## The word of four bytes, and its fields -/

theorem toNat_wordOfBytes (b0 b1 b2 b3 : Byte) :
    (wordOfBytes b0 b1 b2 b3).toNat = b0.toNat * 2 ^ 24 + b1.toNat * 2 ^ 16 + b2.toNat * 2 ^ 8 + b3.toNat := by
  simp only [wordOfBytes, toNat_append_mul]
  omega

/-- `H[31:24]` is the first byte (R38). -/
@[simp] theorem extractLsb'_24_wordOfBytes (b0 b1 b2 b3 : Byte) :
    (wordOfBytes b0 b1 b2 b3).extractLsb' 24 8 = b0 := by
  have h1 := b1.isLt
  have h2 := b2.isLt
  have h3 := b3.isLt
  apply BitVec.eq_of_toNat_eq
  rw [BitVec.extractLsb'_toNat, toNat_wordOfBytes, Nat.shiftRight_eq_div_pow]
  omega

@[simp] theorem headerTag_wordOfBytes (b0 b1 b2 b3 : Byte) : headerTag (wordOfBytes b0 b1 b2 b3) = b1 := by
  have h2 := b2.isLt
  have h3 := b3.isLt
  apply BitVec.eq_of_toNat_eq
  rw [headerTag, BitVec.extractLsb'_toNat, toNat_wordOfBytes, Nat.shiftRight_eq_div_pow]
  omega

@[simp] theorem headerSize_wordOfBytes (b0 b1 b2 b3 : Byte) :
    headerSize (wordOfBytes b0 b1 b2 b3) = halfOfBytes b2 b3 := by
  apply BitVec.eq_of_toNat_eq
  rw [headerSize, BitVec.extractLsb'_toNat, toNat_wordOfBytes, toNat_halfOfBytes, Nat.shiftRight_eq_div_pow]
  omega

/-! ## Recognising a header by its word -/

/-- The word view of a bitwise AND goes byte by byte. -/
theorem wordOfBytes_and (a0 a1 a2 a3 b0 b1 b2 b3 : Byte) :
    wordOfBytes a0 a1 a2 a3 &&& wordOfBytes b0 b1 b2 b3 =
      wordOfBytes (a0 &&& b0) (a1 &&& b1) (a2 &&& b2) (a3 &&& b3) := by
  change (a0 ++ a1 ++ a2 ++ a3 : BitVec (8 + 8 + 8 + 8)) &&& (b0 ++ b1 ++ b2 ++ b3) = _
  rw [BitVec.and_append, BitVec.and_append, BitVec.and_append, wordOfBytes]

/-- The mask of R48 keeps the first byte and clears the others. -/
theorem wordOfBytes_and_delimMask (b0 b1 b2 b3 : Byte) :
    wordOfBytes b0 b1 b2 b3 &&& 0xFF000000#32 = wordOfBytes b0 0 0 0 := by
  have hmask : 0xFF000000#32 = wordOfBytes (BitVec.allOnes 8) 0 0 0 := by decide
  simp only [hmask, wordOfBytes_and, BitVec.and_allOnes, BitVec.ofNat_eq_ofNat, BitVec.and_zero]

theorem toNat_wordOfBytes_and_delimMask (b0 b1 b2 b3 : Byte) :
    (wordOfBytes b0 b1 b2 b3 &&& 0xFF000000#32).toNat = b0.toNat * 2 ^ 24 := by
  simp [wordOfBytes_and_delimMask, toNat_wordOfBytes]

/-- The other side of the comparison of R48: the delimiter, shifted, is not cut off. -/
theorem toNat_delim_shiftLeft (delim : Byte) : (delim.zeroExtend 32 <<< 24).toNat = delim.toNat * 2 ^ 24 := by
  have h := delim.isLt
  simp only [BitVec.toNat_shiftLeft, BitVec.truncate_eq_setWidth, BitVec.toNat_setWidth, Nat.shiftLeft_eq]
  omega

/-- The masked word is the shifted delimiter, as a number, exactly where the first byte is the delimiter (R48). -/
theorem toNat_and_delimMask_eq_iff (delim b0 b1 b2 b3 : Byte) :
    (wordOfBytes b0 b1 b2 b3 &&& 0xFF000000#32).toNat = delim.toNat * 2 ^ 24 ↔ b0 = delim := by
  rw [toNat_wordOfBytes_and_delimMask, Nat.mul_left_inj (by decide), BitVec.toNat_inj]

@[simp] theorem isFrameHeader_wordOfBytes (delim b0 b1 b2 b3 : Byte) :
    isFrameHeader delim (wordOfBytes b0 b1 b2 b3) = true ↔ b0 = delim := by
  rw [isFrameHeader, beq_iff_eq, ← BitVec.toNat_inj, toNat_delim_shiftLeft, toNat_and_delimMask_eq_iff]

end Sys2Proof

namespace Sys2Proof.Machine

open Sys2Proof.Cert

/-! ## The Header Parser through the word view -/

/-- The Header Parser gives what the word of the first four bytes says (R38, R48, R67). -/
theorem parseHeader_eq_wordView (delim b0 b1 b2 b3 : Byte) (rest : List Byte) :
    parseHeader delim (b0 :: b1 :: b2 :: b3 :: rest) =
      if isFrameHeader delim (wordOfBytes b0 b1 b2 b3) = true then
        .ok { tag := headerTag (wordOfBytes b0 b1 b2 b3), size := headerSize (wordOfBytes b0 b1 b2 b3) }
      else .error .delimiterMismatch := by
  simp only [parseHeader, isFrameHeader_wordOfBytes, headerTag_wordOfBytes, headerSize_wordOfBytes]

/-- The length check comes first: fewer than four bytes are no header, whatever they are (R67, R68). -/
theorem parseHeader_of_short {delim : Byte} {buf : List Byte} (h : buf.length < 4) :
    parseHeader delim buf = .error .tooLittleData := by
  obtain ⟨-, hp⟩ | ⟨_, _, _, _, _, rfl, -⟩ | ⟨_, _, _, _, rfl, -⟩ := parseHeader_cases delim buf
  · exact hp
  · exact absurd h (by simp)
  · exact absurd h (by simp)

/-! ## The statement -/

/-- Settles O6: the fields of the word are the header's bytes, and the parser answers by those fields. -/
theorem headerViewsAgree : Obligations.HeaderViewsAgree := by
  refine ⟨fun delim b0 b1 b2 b3 rest => ?_, fun _ _ => parseHeader_of_short⟩
  have hsize : (headerSize (wordOfBytes b0 b1 b2 b3)).toNat = sizeOf16 b2 b3 := by
    rw [headerSize_wordOfBytes, toNat_halfOfBytes, sizeOf16]
  exact ⟨toNat_wordOfBytes b0 b1 b2 b3, extractLsb'_24_wordOfBytes b0 b1 b2 b3, headerTag_wordOfBytes b0 b1 b2 b3, hsize,
    toNat_and_delimMask_eq_iff delim b0 b1 b2 b3, isFrameHeader_wordOfBytes delim b0 b1 b2 b3,
    parseHeader_eq_wordView delim b0 b1 b2 b3 rest⟩

end Sys2Proof.Machine

/-! The statements on encodings: the command port's decoder and encoder, the wire frame, the text form of commands, the
tag names, PUMP, FRAME, reserved commands and the form of responses (spec/30_encoding.md R47 to R66). -/

namespace Sys2Proof

/-! ## The opcode map, read both ways -/

/-- The opcode of a command (R55); a frame has none. -/
def opcodeOf : Instr → Byte
  | .write _ => 0x01
  | .next => 0x02
  | .parse _ => 0x03
  | .status => 0x04
  | .reset => 0x05
  | .frame _ _ => 0x00

/-- The operand bytes of a command (R54, R55); a frame has none. -/
def operandOf : Instr → List Byte
  | .write data => data
  | .next => []
  | .parse data => data
  | .status => []
  | .reset => []
  | .frame _ _ => []

theorem encode_of_isCommand {i : Instr} (h : i.isCommand = true) (delim : Byte) :
    encode delim i = encodeCommand (opcodeOf i) (operandOf i) := by
  cases i with
  | frame tag payload => cases h
  | write _ | next | parse _ | status | reset => rfl

theorem wellFormed_iff_of_isCommand {i : Instr} (h : i.isCommand = true) :
    i.wellFormed = true ↔ (operandOf i).length ≤ Config.maxChunk := by
  cases i with
  | frame tag payload => cases h
  | write _ | parse _ => exact decide_eq_true_iff
  | next | status | reset => simp [Instr.wellFormed, operandOf]

/-- The decoder's opcode map and the encoder's undo one another (R55). -/
theorem instrOf_eq_some_iff {op : Byte} {operand : List Byte} {i : Instr} :
    instrOf op operand = some i ↔ i.isCommand = true ∧ op = opcodeOf i ∧ operand = operandOf i := by
  constructor
  · intro h
    unfold instrOf at h
    split at h <;> rename_i hop
    case h_1 | h_3 =>
      cases h
      exact ⟨rfl, BitVec.eq_of_toNat_eq hop, rfl⟩
    case h_2 | h_4 | h_5 =>
      obtain ⟨rfl, h⟩ := Option.ite_none_right_eq_some.1 h
      cases h
      exact ⟨rfl, BitVec.eq_of_toNat_eq hop, rfl⟩
    case h_6 => cases h
  · rintro ⟨hcmd, rfl, rfl⟩
    cases i with
    | frame tag payload => cases hcmd
    | write _ | next | parse _ | status | reset => rfl

/-- The reserved encodings (R59): an opcode outside 1 to 5, or an operand where LEN must be 0. -/
theorem instrOf_eq_none {op : Byte} {operand : List Byte} (hwrite : op ≠ 0x01) (hparse : op ≠ 0x03)
    (hnext : ¬ (op = 0x02 ∧ operand = [])) (hstatus : ¬ (op = 0x04 ∧ operand = []))
    (hreset : ¬ (op = 0x05 ∧ operand = [])) : instrOf op operand = none := by
  refine Option.eq_none_iff_forall_ne_some.2 fun i hi => ?_
  obtain ⟨hcmd, hop, hoperand⟩ := instrOf_eq_some_iff.1 hi
  cases i with
  | write data => exact hwrite hop
  | next => exact hnext ⟨hop, hoperand⟩
  | parse data => exact hparse hop
  | status => exact hstatus ⟨hop, hoperand⟩
  | reset => exact hreset ⟨hop, hoperand⟩
  | frame tag payload => cases hcmd

/-- R59's list of the reserved encodings, with the opcode as a number. -/
theorem instrOf_eq_none_of_toNat {op : Byte} {operand : List Byte}
    (h : op.toNat = 0 ∨ 6 ≤ op.toNat ∨ ((op.toNat = 2 ∨ op.toNat = 4 ∨ op.toNat = 5) ∧ operand.length ≠ 0)) :
    instrOf op operand = none := by
  apply instrOf_eq_none
  case hwrite | hparse => rintro rfl; simp at h
  case hnext | hstatus | hreset => rintro ⟨rfl, rfl⟩; simp at h

/-! ## The command port's decoder, one whole command at a time -/

section decodeCommand
variable {b0 b1 b2 op : Byte} {operand : List Byte} {i : Instr}

/-- A defined command and its operand are decoded, and what follows is left (R53 to R55). -/
theorem decodeCommand_of_instrOf_some (hlen : operand.length = b0.toNat * 65536 + b1.toNat * 256 + b2.toNat)
    (h : instrOf op operand = some i) (rest : List Byte) :
    decodeCommand (b0 :: b1 :: b2 :: op :: (operand ++ rest)) = .instr i rest := by
  simp [decodeCommand, cmdLen_wordOfBytes, ← hlen, h]

/-- A reserved encoding takes its operand with it (R59). -/
theorem decodeCommand_of_instrOf_none (hlen : operand.length = b0.toNat * 65536 + b1.toNat * 256 + b2.toNat)
    (h : instrOf op operand = none) (rest : List Byte) :
    decodeCommand (b0 :: b1 :: b2 :: op :: (operand ++ rest)) = .reserved op operand rest := by
  simp [decodeCommand, cmdLen_wordOfBytes, ← hlen, h]

end decodeCommand

/-- Bytes that decode to a command are a command word, its operand and what follows (R53). -/
theorem exists_of_decodeCommand_eq_instr {bytes rest : List Byte} {i : Instr} (h : decodeCommand bytes = .instr i rest) :
    ∃ b0 b1 b2 op operand, bytes = b0 :: b1 :: b2 :: op :: (operand ++ rest) ∧
      operand.length = b0.toNat * 65536 + b1.toNat * 256 + b2.toNat ∧ instrOf op operand = some i := by
  match bytes, h with
  | [], h | [_], h | [_, _], h | [_, _, _], h => cases h
  | b0 :: b1 :: b2 :: op :: body, h =>
    simp only [decodeCommand, cmdOp_wordOfBytes, cmdLen_wordOfBytes] at h
    split at h
    · cases h
    · rename_i hlen
      split at h
      · rename_i j hj
        cases h
        exact ⟨b0, b1, b2, op, body.take _, by rw [List.take_append_drop],
          List.length_take_of_le (Nat.le_of_not_lt hlen), hj⟩
      · cases h

/-! ## Four bytes and their word -/

/-- The word of four bytes gives those bytes back (R37). -/
theorem bytesOfWord_wordOfBytes (b0 b1 b2 b3 : Byte) : bytesOfWord (wordOfBytes b0 b1 b2 b3) = [b0, b1, b2, b3] := by
  have h16 := headerTag_wordOfBytes b0 b1 b2 b3
  have h0 := cmdOp_wordOfBytes b0 b1 b2 b3
  have h8 : (wordOfBytes b0 b1 b2 b3).extractLsb' 8 8 = b2 := by
    have := b3.isLt
    apply BitVec.eq_of_toNat_eq
    rw [BitVec.extractLsb'_toNat, toNat_wordOfBytes, Nat.shiftRight_eq_div_pow]
    omega
  rw [headerTag] at h16
  rw [cmdOp] at h0
  rw [bytesOfWord, extractLsb'_24_wordOfBytes, h16, h8, h0]

/-- The encoding of an opcode and its operand decodes to the command they select, whatever follows (R53 to R55). -/
theorem decodeCommand_encodeCommand {op : Byte} {operand : List Byte} {i : Instr} (hlen : operand.length ≤ Config.maxChunk)
    (h : instrOf op operand = some i) (rest : List Byte) :
    decodeCommand (encodeCommand op operand ++ rest) = .instr i rest := by
  rw [← cmdOp_cmdWord op operand.length] at h
  rw [encodeCommand, List.append_assoc]
  refine decodeCommand_of_instrOf_some ?_ h rest
  rw [← cmdLen_wordOfBytes, wordOfBytes_bytesOfWord, cmdLen_cmdWord op hlen]

/-- Four bytes whose LEN is the length of the operand after them are, with it, its encoding (R53, R54). -/
theorem encodeCommand_eq {b0 b1 b2 : Byte} {operand : List Byte}
    (hlen : operand.length = b0.toNat * 65536 + b1.toNat * 256 + b2.toNat) (op : Byte) :
    encodeCommand op operand = b0 :: b1 :: b2 :: op :: operand := by
  have hw := word_eq_cmdWord (wordOfBytes b0 b1 b2 op)
  rw [cmdOp_wordOfBytes, cmdLen_wordOfBytes, ← hlen] at hw
  rw [encodeCommand, ← hw, bytesOfWord_wordOfBytes]
  rfl

theorem length_le_maxChunk {b0 b1 b2 : Byte} {operand : List Byte}
    (hlen : operand.length = b0.toNat * 65536 + b1.toNat * 256 + b2.toNat) : operand.length ≤ Config.maxChunk := by
  have h0 := b0.isLt
  have h1 := b1.isLt
  have h2 := b2.isLt
  unfold Config.maxChunk
  omega

/-! ## The wire frame -/

/-- A header whose size bytes give the payload's length decodes to the frame, whatever follows (R48, R49). -/
theorem decodeFrame_of_length {hi lo : Byte} {payload : List Byte} (hs : payload.length = hi.toNat * 256 + lo.toNat)
    (delim tag : Byte) (rest : List Byte) :
    decodeFrame delim (delim :: tag :: hi :: lo :: (payload ++ rest)) = some (.frame tag payload, rest) := by
  simp [decodeFrame, toNat_halfOfBytes, ← hs]

/-- The encoder writes the frame that the statements write as `wire` (R47, R64). -/
theorem encodeFrame_eq_wire (delim tag : Byte) (payload : List Byte) :
    encodeFrame delim tag payload = Cert.wire delim ⟨tag, payload⟩ := by
  have hhi : payload.length >>> 8 = payload.length / 256 := Nat.shiftRight_eq_div_pow _ 8
  have hlo : BitVec.ofNat 8 (payload.length &&& 0xFF) = BitVec.ofNat 8 payload.length := by
    apply BitVec.eq_of_toNat_eq
    rw [show (0xFF : Nat) = 2 ^ 8 - 1 from rfl, Nat.and_two_pow_sub_one_eq_mod, BitVec.toNat_ofNat, BitVec.toNat_ofNat,
      Nat.mod_mod]
  simp [encodeFrame, bytesOfHalf, Cert.wire, hhi, hlo]

end Sys2Proof

namespace Sys2Proof.Machine

open Sys2Proof.Cert

/-- The encoder's frame, with the size bytes named (R47). -/
theorem encodeFrame_of_length {hi lo : Byte} {payload : List Byte} (hs : payload.length = hi.toNat * 256 + lo.toNat)
    (delim tag : Byte) : encodeFrame delim tag payload = delim :: tag :: hi :: lo :: payload :=
  (encodeFrame_eq_wire delim tag payload).trans (wire_mk delim tag hs)

/-! ## The statements on the decoder and the encoder -/

/-- Settles O2: a command is encoded as its opcode and operand, which the opcode map takes back to it. -/
theorem commandDecodesFromItsEncoding : Obligations.CommandDecodesFromItsEncoding := by
  intro delim i rest hcmd hwf
  rw [encode_of_isCommand hcmd]
  exact decodeCommand_encodeCommand ((wellFormed_iff_of_isCommand hcmd).1 hwf) (instrOf_eq_some_iff.2 ⟨hcmd, rfl, rfl⟩) rest

/-- Settles O4: the bytes are a command word and its operand, and those are the encoding of what they select. -/
theorem decodedBytesAreTheEncoding : Obligations.DecodedBytesAreTheEncoding := by
  intro delim bytes i rest h
  obtain ⟨b0, b1, b2, op, operand, rfl, hlen, hi⟩ := exists_of_decodeCommand_eq_instr h
  obtain ⟨hcmd, rfl, rfl⟩ := instrOf_eq_some_iff.1 hi
  refine ⟨hcmd, (wellFormed_iff_of_isCommand hcmd).2 (length_le_maxChunk hlen), ?_⟩
  rw [encode_of_isCommand hcmd, encodeCommand_eq hlen]
  rfl

/-- Settles O5: the header's size bytes are the payload's length, to the decoder and to the encoder. -/
theorem frameDecodesFromItsWireBytes : Obligations.FrameDecodesFromItsWireBytes := fun delim tag _ _ _ rest hs =>
  ⟨decodeFrame_of_length hs delim tag rest, encodeFrame_of_length hs delim tag⟩

/-- Settles O3: the operand is the next LEN bytes, and the opcode map says what OP and they select. -/
theorem commandWordSelectsTheCommand : Obligations.CommandWordSelectsTheCommand := by
  intro b0 b1 b2 op body
  dsimp only
  split
  · exact decodeCommand_of_short_operand ‹_›
  rename_i hshort
  generalize hlen : b0.toNat * 65536 + b1.toNat * 256 + b2.toNat = len at hshort ⊢
  obtain ⟨operand, rest, rfl, rfl⟩ : ∃ operand rest, body = operand ++ rest ∧ operand.length = len :=
    ⟨body.take len, body.drop len, (List.take_append_drop len body).symm, List.length_take_of_le (Nat.le_of_not_lt hshort)⟩
  simp only [List.take_left, List.drop_left, List.length_eq_zero_iff]
  split_ifs with hwrite hparse hnext hstatus hreset
  · subst hwrite
    exact decodeCommand_of_instrOf_some hlen.symm rfl rest
  · subst hparse
    exact decodeCommand_of_instrOf_some hlen.symm rfl rest
  · obtain ⟨rfl, rfl⟩ := hnext
    exact decodeCommand_of_instrOf_some hlen.symm rfl rest
  · obtain ⟨rfl, rfl⟩ := hstatus
    exact decodeCommand_of_instrOf_some hlen.symm rfl rest
  · obtain ⟨rfl, rfl⟩ := hreset
    exact decodeCommand_of_instrOf_some hlen.symm rfl rest
  · exact decodeCommand_of_instrOf_none hlen.symm (instrOf_eq_none hwrite hparse hnext hstatus hreset) rest

/-- Settles O34: the encoding selects no command, so the step serves the rule that answers Unknown and keeps the block. -/
theorem reservedCommandAnswersUnknown : Obligations.ReservedCommandAnswersUnknown := by
  intro s port b0 b1 b2 op operand rest more hinbox hlen hop hport
  have hnone := instrOf_eq_none_of_toNat hop
  have hserved : (takeCommand s port rest more).blocks[port]? = some s.blocks[port] := List.getElem?_eq_getElem hport
  rw [step_of_reserved hinbox (decodeCommand_of_instrOf_none hlen hnone rest), execReserved, serve_of_served hserved,
    reservedBlock, raise, State.answer, set_served hserved, takeCommand, requeue_eq]
  rfl

/-- Settles O1, by running the two decoders on the nine examples. -/
theorem exampleWordsDecode : Obligations.ExampleWordsDecode := by
  unfold Obligations.ExampleWordsDecode
  decide

/-! ## Command text: hex digits -/

theorem hexValue_hexDigit {n : Nat} (h : n < 16) : hexValue (hexDigit n) = some n := by
  revert n
  decide

/-- A hex digit is neither a space nor the comment sign. -/
theorem hexDigit_ne {n : Nat} (h : n < 16) : hexDigit n ≠ ' ' ∧ hexDigit n ≠ ';' := by
  revert n
  decide

theorem byteOfHex_hexByte (b : Byte) : byteOfHex (hexByte b) = some b := by
  have hb := b.isLt
  have hhigh := hexValue_hexDigit (n := b.toNat / 16) (by omega)
  have hlow := hexValue_hexDigit (n := b.toNat % 16) (Nat.mod_lt _ (by decide))
  simp [byteOfHex, hexByte, hhigh, hlow, Nat.div_add_mod]

theorem bytesOfHex_map_hexByte (bs : List Byte) : bytesOfHex (bs.map hexByte) = some bs := by
  induction bs with
  | nil => rfl
  | cons b bs ih => simp [bytesOfHex, byteOfHex_hexByte, ih]

/-! ## Command text: a line and its words -/

/-- A word of command text (R62): not empty, and without space or comment sign. -/
def IsWord (w : List Char) : Prop := w ≠ [] ∧ ∀ c ∈ w, c ≠ ' ' ∧ c ≠ ';'

/-- The line of these words after a first one: each with one space before it. -/
def spaced (ws : List (List Char)) : List Char := ws.flatMap (' ' :: ·)

@[simp] theorem spaced_nil : spaced [] = [] := rfl

@[simp] theorem spaced_cons (w : List Char) (ws : List (List Char)) : spaced (w :: ws) = ' ' :: (w ++ spaced ws) := rfl

theorem operandText_eq_spaced (bs : List Byte) : operandText bs = spaced (bs.map hexByte) := by
  induction bs with
  | nil => rfl
  | cons b bs ih => simp [operandText, ih]

theorem isWord_hexByte (b : Byte) : IsWord (hexByte b) := by
  have hb := b.isLt
  have hhigh := hexDigit_ne (n := b.toNat / 16) (by omega)
  have hlow := hexDigit_ne (n := b.toNat % 16) (Nat.mod_lt _ (by decide))
  exact ⟨by simp [hexByte], by simpa [hexByte] using ⟨hhigh, hlow⟩⟩

theorem forall_isWord_map_hexByte (bs : List Byte) : ∀ w ∈ bs.map hexByte, IsWord w := by
  simpa using fun b _ => isWord_hexByte b

theorem stripComment_eq_self {line : List Char} (h : ∀ c ∈ line, c ≠ ';') : stripComment line = line := by
  induction line with
  | nil => rfl
  | cons c cs ih =>
    obtain ⟨hc, hcs⟩ := List.forall_mem_cons.1 h
    simp [stripComment, hc, ih hcs]

theorem splitSpaces_word {w : List Char} (h : ∀ c ∈ w, c ≠ ' ') : splitSpaces w = [w] := by
  induction w with
  | nil => rfl
  | cons c cs ih =>
    obtain ⟨hc, hcs⟩ := List.forall_mem_cons.1 h
    simp [splitSpaces, hc, ih hcs, consChar]

theorem splitSpaces_word_append {w : List Char} (h : ∀ c ∈ w, c ≠ ' ') (line : List Char) :
    splitSpaces (w ++ ' ' :: line) = w :: splitSpaces line := by
  induction w with
  | nil => simp [splitSpaces]
  | cons c cs ih =>
    obtain ⟨hc, hcs⟩ := List.forall_mem_cons.1 h
    simp [splitSpaces, hc, ih hcs, consChar]

section words
variable {w : List Char} {ws : List (List Char)}

theorem splitSpaces_spaced (hw : IsWord w) (hws : ∀ v ∈ ws, IsWord v) : splitSpaces (w ++ spaced ws) = w :: ws := by
  have hspace (c : Char) (hc : c ∈ w) : c ≠ ' ' := (hw.2 c hc).1
  induction ws generalizing w with
  | nil => simpa using splitSpaces_word hspace
  | cons v vs ih =>
    obtain ⟨hv, hvs⟩ := List.forall_mem_cons.1 hws
    rw [spaced_cons, splitSpaces_word_append hspace, ih hv hvs fun c hc => (hv.2 c hc).1]

theorem ne_semicolon_of_mem_spaced (hws : ∀ v ∈ ws, IsWord v) : ∀ c ∈ spaced ws, c ≠ ';' := by
  intro c hc
  obtain ⟨v, hv, hc⟩ := List.mem_flatMap.1 hc
  obtain rfl | hc := List.mem_cons.1 hc
  · decide
  · exact ((hws v hv).2 c hc).2

/-- Words with single spaces between them are read back as those words. -/
theorem tokens_spaced (hw : IsWord w) (hws : ∀ v ∈ ws, IsWord v) : tokens (w ++ spaced ws) = w :: ws := by
  have hstrip : stripComment (w ++ spaced ws) = w ++ spaced ws :=
    stripComment_eq_self (List.forall_mem_append.2 ⟨fun c hc => (hw.2 c hc).2, ne_semicolon_of_mem_spaced hws⟩)
  have hnonempty : ∀ v ∈ w :: ws, (!v.isEmpty) = true :=
    List.forall_mem_cons.2 ⟨by simpa using hw.1, fun v hv => by simpa using (hws v hv).1⟩
  rw [tokens, hstrip, splitSpaces_spaced hw hws, List.filter_eq_self.2 hnonempty]

end words

/-! ## Command text: one line of each command -/

section assemble
variable {delim : Byte} {line : List Char} {args : List (List Char)} {bs : List Byte}

theorem assemble_of_write (h : tokens line = ['W', 'R', 'I', 'T', 'E'] :: args) (hbs : bytesOfHex args = some bs) :
    assemble delim line = some (.write bs) := by
  simp [assemble, h, hbs]

theorem assemble_of_parse (h : tokens line = ['P', 'A', 'R', 'S', 'E'] :: args) (hbs : bytesOfHex args = some bs) :
    assemble delim line = some (.parse bs) := by
  simp [assemble, h, hbs]

theorem assemble_of_writef {word : List Char} {tag : Byte}
    (h : tokens line = ['W', 'R', 'I', 'T', 'E', 'F'] :: word :: args) (htag : tagOfHex word = some tag)
    (hbs : bytesOfHex args = some bs) (hlen : bs.length ≤ Config.maxPayload) :
    assemble delim line = some (writef delim tag bs) := by
  simp [assemble, h, htag, hbs, hlen]

end assemble

/-- The tokens of a mnemonic and operand bytes (R62). -/
theorem tokens_operandText {mnemonic : List Char} (h : IsWord mnemonic) (bs : List Byte) :
    tokens (mnemonic ++ operandText bs) = mnemonic :: bs.map hexByte := by
  rw [operandText_eq_spaced, tokens_spaced h (forall_isWord_map_hexByte bs)]

/-- The tag as WRITEF writes it (R64): with a comma where payload bytes follow. -/
def tagWord (tag : Byte) (payload : List Byte) : List Char := hexByte tag ++ if payload = [] then [] else [',']

theorem isWord_tagWord (tag : Byte) (payload : List Byte) : IsWord (tagWord tag payload) := by
  obtain ⟨hne, hchars⟩ := isWord_hexByte tag
  refine ⟨by simp [tagWord, hne], List.forall_mem_append.2 ⟨hchars, ?_⟩⟩
  split <;> simp

theorem tagOfHex_tagWord (tag : Byte) (payload : List Byte) : tagOfHex (tagWord tag payload) = some tag := by
  rw [tagWord]
  split <;> exact byteOfHex_hexByte tag

theorem tokens_assemblyText_frame (tag : Byte) (payload : List Byte) :
    tokens (assemblyText (.frame tag payload)) =
      ['W', 'R', 'I', 'T', 'E', 'F'] :: tagWord tag payload :: payload.map hexByte := by
  have htext : assemblyText (.frame tag payload) =
      ['W', 'R', 'I', 'T', 'E', 'F'] ++ spaced (tagWord tag payload :: payload.map hexByte) := by
    simp [assemblyText, tagWord, operandText_eq_spaced]
  rw [htext, tokens_spaced (by simp [IsWord])]
  exact List.forall_mem_cons.2 ⟨isWord_tagWord tag payload, forall_isWord_map_hexByte payload⟩

/-- Settles O8: the text's words are the mnemonic and the hex digits of each byte, which read back as those bytes. -/
theorem assemblyTextRoundTrips : Obligations.AssemblyTextRoundTrips := by
  refine ⟨fun delim i hcmd => ?_, fun delim tag payload hlen => ?_⟩
  · cases i with
    | write data => exact assemble_of_write (tokens_operandText (by simp [IsWord]) data) (bytesOfHex_map_hexByte data)
    | parse data => exact assemble_of_parse (tokens_operandText (by simp [IsWord]) data) (bytesOfHex_map_hexByte data)
    | next | status | reset => rfl
    | frame tag payload => cases hcmd
  · rw [← encodeFrame_eq_wire]
    exact assemble_of_writef (tokens_assemblyText_frame tag payload) (tagOfHex_tagWord tag payload)
      (bytesOfHex_map_hexByte payload) hlen

/-! ## The tag names -/

theorem tagName_tagByte (k : TagKind) : tagName (tagByte k) = k := by
  cases k <;> rfl

/-- The bytes that `tagByte` gives: the nine named ones and the sentinel (R51). -/
theorem tagByte_mem (k : TagKind) : (tagByte k).toNat ≤ 8 ∨ tagByte k = 0xFF#8 := by
  cases k <;> decide

theorem tagByte_tagName_of_le {b : Byte} (h : b.toNat ≤ 8) : tagByte (tagName b) = b := by
  have hb : b = BitVec.ofNat 8 b.toNat := BitVec.eq_of_toNat_eq (by simp)
  generalize b.toNat = n at h hb
  subst hb
  interval_cases n <;> rfl

/-- Settles O7: `tagByte` gives the nine named bytes and the sentinel, and on those `tagName` undoes it. -/
theorem tagNamesRoundTrip : Obligations.TagNamesRoundTrip := by
  refine ⟨rfl, tagName_tagByte, fun b => ⟨fun h => h ▸ tagByte_mem (tagName b), ?_⟩, rfl⟩
  rintro (h | rfl)
  · exact tagByte_tagName_of_le h
  · rfl

/-! ## WRITE where the caps are kept: PUMP and FRAME -/

section write
variable {p : Params} {b new : Block} {data : List Byte}

/-- A candidate within the caps is committed (R85). -/
theorem capCheck_of_withinCaps (h : new.WithinCaps p) (old : Block) (r : Response) : capCheck p old new r = (new, r) := by
  simp [capCheck, (overCaps_eq_false_iff p new).2 h]

theorem writeBlock_of_short (hs : b.state ≠ .failure) (h : b.pending.length + data.length < 4) :
    writeBlock data p b = capCheck p b { b with state := .inProgress, pending := b.pending ++ data } okResponse := by
  cases hb : b.state with
  | failure => exact absurd hb hs
  | empty | inProgress => simp [writeBlock, hb, writeShort, Config.hdrSize, h]

theorem writeBlock_of_empty (hs : b.state = .empty) (h : 4 ≤ b.pending.length + data.length) :
    writeBlock data p b = writeEmpty data p b := by
  simp [writeBlock, hs, Config.hdrSize, Nat.not_lt_of_le h]

theorem writeBlock_of_inProgress (hs : b.state = .inProgress) (h : 4 ≤ b.pending.length + data.length) :
    writeBlock data p b = writeInProgress (b.pending ++ data) p b := by
  simp [writeBlock, hs, Config.hdrSize, Nat.not_lt_of_le h]

/-- Four bytes or more that do not start with the delimiter (R67). -/
theorem parseHeader_of_mismatch {delim b0 : Byte} {more : List Byte} (hl : 4 ≤ (b0 :: more).length) (h0 : b0 ≠ delim) :
    parseHeader delim (b0 :: more) = .error .delimiterMismatch := by
  obtain ⟨h, -⟩ | ⟨_, _, _, _, _, -, -, hp⟩ | ⟨_, _, _, _, h, -⟩ := parseHeader_cases delim (b0 :: more)
  · omega
  · exact hp
  · exact absurd (List.cons.inj h).1 h0

end write

/-- An instruction answers what its rule gives for the served block. -/
theorem answers_of_instrBlock {s : State} {i : Instr} {b b' : Block} {r : Response} (h : Served s b)
    (hi : instrBlock i s.params b = (b', r)) : Answers i s b' r := by
  have hans := answers_of_served h i
  rwa [hi] at hans

section pump
variable {p : Params} {b : Block}

theorem pump_of_inProgress (hs : b.state = .inProgress) (h : 4 ≤ b.pending.length) :
    instrBlock pump p b = writeInProgress b.pending p b := by
  rw [pump, instrBlock, writeBlock_of_inProgress hs (by simpa using h), List.append_nil]

/-- Fewer than four bytes pending: only STATE changes (R63, R75). -/
theorem pump_short (hs : b.state ≠ .failure) (h : b.pending.length < 4) (hcaps : b.WithinCaps p) :
    instrBlock pump p b = ({ b with state := .inProgress }, okResponse) := by
  rw [pump, instrBlock, writeBlock_of_short hs (by simpa using h), List.append_nil]
  refine capCheck_of_withinCaps ?_ b okResponse
  exact hcaps

/-- A bad header pending is reported and stays (R63, R81). -/
theorem pump_mismatch {b0 : Byte} {more : List Byte} (hs : b.state = .inProgress) (hb : b.pending = b0 :: more)
    (h : 4 ≤ b.pending.length) (h0 : b0 ≠ p.delim) (hcaps : b.WithinCaps p) :
    instrBlock pump p b = (b, errResponse .framingDelimiterMismatch) := by
  obtain ⟨st, pending, decoded⟩ := b
  subst hs hb
  rw [pump_of_inProgress rfl h, writeInProgress_error (parseHeader_of_mismatch h h0)]
  exact capCheck_of_withinCaps hcaps _ _

/-- The start of a frame pending: nothing changes (R63, R83). -/
theorem pump_less {tag hi lo : Byte} {part : List Byte} (hs : b.state = .inProgress)
    (hb : b.pending = p.delim :: tag :: hi :: lo :: part) (hl : part.length < hi.toNat * 256 + lo.toNat)
    (hcaps : b.WithinCaps p) : instrBlock pump p b = (b, okResponse) := by
  obtain ⟨st, pending, decoded⟩ := b
  subst hs hb
  rw [pump_of_inProgress rfl (by simp), writeInProgress_less hl]
  exact capCheck_of_withinCaps hcaps _ _

/-- A whole frame pending is queued, and what follows it stays pending (R63, R82, R84). -/
theorem pump_whole {tag hi lo : Byte} {payload tail : List Byte} (hs : b.state = .inProgress)
    (hb : b.pending = p.delim :: tag :: hi :: lo :: (payload ++ tail))
    (hl : payload.length = hi.toNat * 256 + lo.toNat)
    (hcaps : Block.WithinCaps p
      { state := .inProgress, pending := tail, decoded := b.decoded ++ [⟨tag, payload⟩] }) :
    instrBlock pump p b =
      ({ state := if tail = [] then .empty else .inProgress, pending := tail,
         decoded := b.decoded ++ [⟨tag, payload⟩] }, okResponse) := by
  rw [pump_of_inProgress hs (by simp [hb]), hb]
  by_cases ht : tail = []
  · subst ht
    rw [List.append_nil, writeInProgress_equal hl, if_pos rfl]
    refine capCheck_of_withinCaps ?_ b okResponse
    exact hcaps
  · rw [writeInProgress_greater hl ht, if_neg ht]
    exact capCheck_of_withinCaps hcaps b okResponse

end pump

/-- Settles O25: PUMP on a short, a mismatched, an unfinished and a whole front of PENDING. -/
theorem pumpExtractsTheNextFrame : Obligations.PumpExtractsTheNextFrame := by
  refine ⟨by decide, fun s b h hcaps => ⟨fun hs hshort => ?_, fun hs b0 more hb hl h0 => ?_,
    fun hs tag hi lo part hb hl => ?_, fun hs tag hi lo payload tail hb hl hqueue => ?_⟩⟩
  · exact answers_of_instrBlock h (pump_short hs hshort hcaps)
  · exact answers_of_instrBlock h (pump_mismatch hs hb hl h0 hcaps)
  · exact answers_of_instrBlock h (pump_less hs hb hl hcaps)
  · have htail : tail.length ≤ b.pending.length := by simp [hb]; omega
    exact answers_of_instrBlock h (pump_whole hs hb hl fun hm => ⟨htail.trans (hcaps hm).1, by simpa using hqueue hm⟩)

/-- `serve` runs its rule at the state's own parameters. -/
theorem serve_congr {s : State} {rule₁ rule₂ : Params → Block → Block × Response}
    (h : ∀ b, rule₁ s.params b = rule₂ s.params b) : serve s rule₁ = serve s rule₂ := by
  simp [serve, h]

/-- FRAME is the WRITE of the frame's encoding (log entry 8, R64). -/
theorem exec_frame (tag : Byte) (payload : List Byte) (s : State) :
    exec (.frame tag payload) s = exec (.write (encodeFrame s.params.delim tag payload)) s := by
  rw [exec_eq_serve, exec_eq_serve]
  exact serve_congr fun _ => rfl

/-- Settles O26: the frame's encoding names its size bytes, and from Empty its WRITE is the Equal branch (R78). -/
theorem frameIsTheWriteThatCarriesIt : Obligations.FrameIsTheWriteThatCarriesIt := by
  intro s tag hi lo payload hl
  refine ⟨by rw [exec_frame, encodeFrame_of_length hl], fun b h hs hclean hqueue => answers_of_instrBlock h ?_⟩
  rw [instrBlock, frameBlock, encodeFrame_of_length hl, writeBlock_of_empty hs (by simp; omega), writeEmpty_equal hl, hclean]
  exact capCheck_of_withinCaps (fun hm => ⟨Nat.zero_le _, by simpa using hqueue hm⟩) b okResponse

/-! ## The form of a response -/

/-- What R56 and R61 say of the response to an instruction: an error is one word with only its status, and the first word
tells the length. -/
def Response.HasForm (i : Instr) (r : Response) : Prop :=
  (r.word.extractLsb' 0 8 ≠ 0x00#8 → r.word.toNat < 256 ∧ r.words = [] ∧ r.bytes = []) ∧
    r.octets.length = responseLength i r.word

/-- With a status other than OK the host takes one word, whatever the command (R61). -/
theorem responseLength_of_error {w : Word} (h : w.extractLsb' 0 8 ≠ 0x00#8) (i : Instr) : responseLength i w = 4 := by
  cases i <;> simp [responseLength, h]

@[simp] theorem length_octets (r : Response) : r.octets.length = 4 + 4 * r.words.length + r.bytes.length := by
  simp [Response.octets, Function.comp_def, Nat.mul_comm, Nat.add_assoc]

theorem errResponse_hasForm {code : Status} (hc : code ≠ .ok) (i : Instr) : (errResponse code).HasForm i := by
  have hstatus : (errResponse code).word.extractLsb' 0 8 ≠ 0x00#8 := by simpa using hc
  have hword : (errResponse code).word.toNat = (statusCode code).toNat := by simp [errResponse, toNat_rspWord]
  refine ⟨fun _ => ⟨hword ▸ (statusCode code).isLt, rfl, rfl⟩, ?_⟩
  rw [responseLength_of_error hstatus, length_octets]
  rfl

/-- A successful response need only have the length its first word tells. -/
theorem hasForm_of_ok {i : Instr} {r : Response} (hr : r.word.extractLsb' 0 8 = 0x00#8)
    (hlen : r.octets.length = responseLength i r.word) : r.HasForm i :=
  ⟨fun h => absurd hr h, hlen⟩

theorem frameResponse_hasForm {f : Frame} (hf : f.payload.length ≤ Config.maxPayload) :
    (frameResponse f).HasForm .next := by
  have hfit : f.payload.length % 2 ^ 16 = f.payload.length := Nat.mod_eq_of_lt (Nat.lt_succ_of_le hf)
  refine hasForm_of_ok (frameResponse_status f) ?_
  simp only [length_octets, frameResponse, responseLength, rspWord_status, statusCode, if_true, rspWord_high,
    BitVec.toNat_ofNat, hfit, List.length_nil]

theorem metadataResponse_hasForm (data : List Byte) (tag : Byte) (size : BitVec 16) :
    (metadataResponse tag size).HasForm (.parse data) :=
  hasForm_of_ok (rspWord_status size tag .ok) (length_octets _)

theorem statusResponse_hasForm (st : EngineState) (queueCount pendingLen : Nat) :
    (statusResponse st queueCount pendingLen).HasForm .status := by
  have hr : (statusResponse st queueCount pendingLen).word.extractLsb' 0 8 = 0x00#8 := rspWord_status _ _ .ok
  refine hasForm_of_ok hr ?_
  rw [length_octets, responseLength, if_pos hr]
  rfl

theorem parseBlock_hasForm (data : List Byte) (p : Params) (b : Block) :
    (parseBlock data p b).2.HasForm (.parse data) := by
  unfold parseBlock
  split
  · exact metadataResponse_hasForm data _ _
  · exact errResponse_hasForm (mapErr_ne_ok _) _

theorem nextBlock_hasForm {b : Block} (hb : b.FramesLegal) (p : Params) : (nextBlock p b).2.HasForm .next := by
  obtain ⟨code, hc, h⟩ | ⟨f, q, hq, h⟩ := nextBlock_cases p b <;> rw [h]
  · exact errResponse_hasForm hc .next
  · exact frameResponse_hasForm (hb f (by simp [hq]))

/-- WRITE answers an error or OK, and the host takes one word for OK (R57). -/
theorem WriteEffect.hasForm {p : Params} {b b' : Block} {data : List Byte} {r : Response} {i : Instr}
    (h : WriteEffect p b data (b', r)) (hi : responseLength i okResponse.word = 4) : r.HasForm i := by
  cases h with
  | dropped hc | keptBad _ hc => exact errResponse_hasForm hc i
  | kept | queued => exact hasForm_of_ok okResponse_status ((length_octets _).trans hi.symm)

theorem instrBlock_hasForm {b : Block} (hb : b.FramesLegal) (i : Instr) (p : Params) : (instrBlock i p b).2.HasForm i := by
  cases i with
  | write data => exact (writeBlock_effect data p b).hasForm rfl
  | next => exact nextBlock_hasForm hb p
  | parse data => exact parseBlock_hasForm data p b
  | status => exact statusResponse_hasForm _ _ _
  | reset => exact hasForm_of_ok okResponse_status (length_octets _)
  | frame tag payload => exact (writeBlock_effect (encodeFrame p.delim tag payload) p b).hasForm rfl

/-- Settles O48: the form of each instruction's response, whatever block is served. -/
theorem responsesHaveTheirForm : Obligations.ResponsesHaveTheirForm := fun i s _ h hb =>
  ⟨_, _, answers_of_served h i, instrBlock_hasForm hb i s.params⟩

end Sys2Proof.Machine

/-! The statement on the header parser: PARSE, its command words and its answers (spec/40_header_parser.md R67, R72). -/

namespace Sys2Proof

/-- The opcode field as a number: LEN lies above it (R54). -/
theorem toNat_cmdOp (w : Word) : (cmdOp w).toNat = w.toNat % 2 ^ 8 := by
  rw [cmdOp, BitVec.extractLsb'_toNat, Nat.shiftRight_zero]

/-- The mask of the command table keeps the opcode field and clears LEN (R72). -/
theorem toNat_and_opcodeMask (w : Word) : (w &&& 0x000000FF#32).toNat = (cmdOp w).toNat := by
  rw [toNat_cmdOp, BitVec.toNat_and]
  exact Nat.and_two_pow_sub_one_eq_mod w.toNat 8

/-- A word matches an opcode under the mask exactly where that is its opcode field (R72). -/
theorem and_opcodeMask_eq_iff (w : Word) (op : Byte) : w &&& 0x000000FF#32 = op.setWidth 32 ↔ cmdOp w = op := by
  rw [← BitVec.toNat_inj, toNat_and_opcodeMask, BitVec.toNat_setWidth_of_le (by decide), BitVec.toNat_inj]

end Sys2Proof

namespace Sys2Proof.Machine

open Sys2Proof.Cert

/-- PARSE takes any operand, so its opcode alone selects it (R55). -/
theorem selects_parse_iff (w : Word) (operand : List Byte) : Selects w operand (.parse operand) ↔ cmdOp w = 0x03 := by
  simp [Selects, instrOf_eq_some_iff, Instr.isCommand, opcodeOf, operandOf]

/-! ## What PARSE answers on each result of the Header Parser -/

section parse
variable {p : Params} {data : List Byte}

theorem parseBlock_error {e : HeaderError} (h : parseHeader p.delim data = .error e) (b : Block) :
    parseBlock data p b = (b, errResponse (mapErr e)) := by
  simp [parseBlock, h, raise]

theorem parseBlock_ok {m : FrameMetadata} (h : parseHeader p.delim data = .ok m) (b : Block) :
    parseBlock data p b = (b, metadataResponse m.tag m.size) := by
  simp [parseBlock, h]

end parse

/-- A delimiter and three more bytes are a header: the tag and the big-endian size (R67). -/
theorem parseHeader_of_delim (delim tag hi lo : Byte) (more : List Byte) :
    parseHeader delim (delim :: tag :: hi :: lo :: more) = .ok { tag := tag, size := halfOfBytes hi lo } :=
  if_pos rfl

/-- The response word of PARSE, as a number: the size over the tag over OK, which is zero (R57). -/
theorem metadataResponse_halfOfBytes (tag hi lo : Byte) :
    metadataResponse tag (halfOfBytes hi lo) = oneWord (BitVec.ofNat 32 (sizeOf16 hi lo * 65536 + tag.toNat * 256)) := by
  have hword : (rspWord (halfOfBytes hi lo) tag .ok).toNat = sizeOf16 hi lo * 65536 + tag.toNat * 256 := by
    simp [toNat_rspWord, toNat_halfOfBytes, sizeOf16, statusCode]
  rw [metadataResponse, oneWord, ← hword, BitVec.ofNat_toNat, BitVec.setWidth_eq]

/-- Settles O9: the mask reads the opcode, and the three results of the Header Parser give the three answers. -/
theorem parseReportsTheHeader : Obligations.ParseReportsTheHeader := by
  refine ⟨fun w operand _ => ?_, fun s b data h => ⟨fun hshort => ?_, ?_⟩⟩
  · rw [selects_parse_iff]
    exact (and_opcodeMask_eq_iff w 0x03).symm
  · exact answers_of_instrBlock h (parseBlock_error (parseHeader_of_short hshort) b)
  · rintro b0 tag hi lo more rfl
    refine ⟨fun hne => ?_, ?_⟩
    · exact answers_of_instrBlock h (parseBlock_error (parseHeader_of_mismatch (by simp) hne) b)
    · rintro rfl
      rw [← metadataResponse_halfOfBytes]
      exact answers_of_instrBlock h (parseBlock_ok (parseHeader_of_delim _ tag hi lo more) b)

end Sys2Proof.Machine

/-! The statements on WRITE: its branches, the capacity check, the opaque tag, and fragments of one frame
(spec/41_write.md R73 to R90). -/

namespace Sys2Proof.Machine

open Sys2Proof.Cert

/-! ## WRITE, branch by branch -/

section branches
variable {p : Params} {b new : Block} {data rest : List Byte} {b0 tag hi lo : Byte}

/-- A WRITE whose candidate keeps the caps leaves that candidate (R85). -/
theorem answers_write_of_capCheck {s : State} {r : Response} (h : Served s b)
    (hw : writeBlock data s.params b = capCheck s.params b new r) (hcaps : new.WithinCaps s.params) :
    Answers (.write data) s new r :=
  answers_of_instrBlock h (hw.trans (capCheck_of_withinCaps hcaps b r))

/-- Empty path, a chunk shorter than a header: only in a launch state with bytes pending (R77, R87). -/
theorem writeBlock_tooLittle (hs : b.state = .empty) (h : 4 ≤ b.pending.length + data.length) (hl : data.length < 4) :
    writeBlock data p b = (b, errResponse .framingTooLittleData) := by
  rw [writeBlock_of_empty hs h, writeEmpty_error (parseHeader_of_short hl), mapErr]

/-- Empty path, no delimiter in front: the chunk is dropped (R77). -/
theorem writeBlock_mismatch_of_empty (hs : b.state = .empty) (hl : 4 ≤ (b0 :: rest).length) (h0 : b0 ≠ p.delim) :
    writeBlock (b0 :: rest) p b = (b, errResponse .framingDelimiterMismatch) := by
  rw [writeBlock_of_empty hs (Nat.le_add_left_of_le hl), writeEmpty_error (parseHeader_of_mismatch hl h0), mapErr]

/-- Empty path, a chunk with a whole header. -/
theorem writeBlock_header_of_empty (hs : b.state = .empty) :
    writeBlock (b0 :: tag :: hi :: lo :: rest) p b = writeEmpty (b0 :: tag :: hi :: lo :: rest) p b :=
  writeBlock_of_empty hs (Nat.le_add_left_of_le (by simp))

/-- InProgress path, a combined buffer of four bytes or more (R81). -/
theorem writeBlock_buffer_of_inProgress {buf : List Byte} (hs : b.state = .inProgress) (hb : b.pending ++ data = buf)
    (hl : 4 ≤ buf.length) : writeBlock data p b = writeInProgress buf p b := by
  subst hb
  exact writeBlock_of_inProgress hs (by simpa using hl)

/-- InProgress path, a combined buffer with a whole header. -/
theorem writeBlock_header_of_inProgress (hs : b.state = .inProgress)
    (hb : b.pending ++ data = b0 :: tag :: hi :: lo :: rest) :
    writeBlock data p b = writeInProgress (b0 :: tag :: hi :: lo :: rest) p b :=
  writeBlock_buffer_of_inProgress hs hb (by simp)

/-- With nothing pending and a valid header the two paths do the same. -/
theorem writeEmpty_eq_writeInProgress {m : FrameMetadata} (hb : b.pending = []) (hp : parseHeader p.delim data = .ok m) :
    writeEmpty data p b = writeInProgress data p b := by
  simp [writeEmpty, writeInProgress, hp, hb]

/-- A clean block outside Failure takes the InProgress path on a valid header, whether it is Empty or not. -/
theorem writeBlock_header_of_clean (hn : b.NotFailed) (hc : b.EmptyClean)
    (hb : b.pending ++ data = p.delim :: tag :: hi :: lo :: rest) :
    writeBlock data p b = writeInProgress (p.delim :: tag :: hi :: lo :: rest) p b := by
  cases hs : b.state with
  | failure => exact absurd hs hn
  | inProgress => exact writeBlock_header_of_inProgress hs hb
  | empty =>
    rw [hc hs, List.nil_append] at hb
    rw [hb, writeBlock_header_of_empty hs]
    exact writeEmpty_eq_writeInProgress (hc hs) (parseHeader_of_delim p.delim tag hi lo rest)

end branches

/-! ## The branches that the capacity check guards -/

section checked
variable {delim : Byte} {b : Block}

/-- The responses that a candidate of WRITE carries. -/
def IsCandidateResponse (r : Response) : Prop := r = okResponse ∨ r = errResponse .framingDelimiterMismatch

/-- Empty path with a valid header: one candidate, the same whatever the caps, goes through the
capacity check. -/
theorem writeEmpty_checked {data : List Byte} (hl : 4 ≤ data.length) (h0 : data.head? = some delim) (b : Block) :
    ∃ new r, IsCandidateResponse r ∧ ∀ p : Params, p.delim = delim → writeEmpty data p b = capCheck p b new r := by
  cases bufferForm delim data with
  | short h => omega
  | mismatch b0 more hb _ hne => exact absurd (by simpa [hb] using h0) hne
  | equal tag hi lo payload hb hs =>
    exact ⟨_, _, .inl rfl, fun p hp => by rw [hb, ← hp]; exact writeEmpty_equal hs⟩
  | less tag hi lo part hb hs =>
    exact ⟨{ b with state := .inProgress, pending := b.pending ++ data }, _, .inl rfl,
      fun p hp => by rw [hb, ← hp]; exact writeEmpty_less hs⟩
  | greater tag hi lo payload tail hb hs ht =>
    exact ⟨_, _, .inl rfl, fun p hp => by rw [hb, ← hp]; exact writeEmpty_greater hs ht⟩

/-- InProgress path: every branch goes through the capacity check, the mismatch too (R81, R85). -/
theorem writeInProgress_checked {buf : List Byte} (hl : 4 ≤ buf.length) (b : Block) :
    ∃ new r, IsCandidateResponse r ∧ ∀ p : Params, p.delim = delim → writeInProgress buf p b = capCheck p b new r := by
  cases bufferForm delim buf with
  | short h => omega
  | mismatch _ _ _ _ _ herr =>
    exact ⟨_, errResponse (mapErr .delimiterMismatch), .inr rfl,
      fun p hp => writeInProgress_error (by rw [hp]; exact herr)⟩
  | equal tag hi lo payload hb hs =>
    exact ⟨_, _, .inl rfl, fun p hp => by rw [hb, ← hp]; exact writeInProgress_equal hs⟩
  | less tag hi lo part hb hs =>
    exact ⟨{ b with state := .inProgress, pending := buf }, _, .inl rfl,
      fun p hp => by rw [hb, ← hp]; exact writeInProgress_less hs⟩
  | greater tag hi lo payload tail hb hs ht =>
    exact ⟨_, _, .inl rfl, fun p hp => by rw [hb, ← hp]; exact writeInProgress_greater hs ht⟩

/-- Every branch of WRITE but the exempt ones makes a candidate that does not depend on the caps, and commits it subject to
the capacity check (R85). -/
theorem writeBlock_checked {data : List Byte} (h : ¬ noCheck delim b data) :
    ∃ new r, IsCandidateResponse r ∧ ∀ p : Params, p.delim = delim → writeBlock data p b = capCheck p b new r := by
  obtain ⟨hn, hempty⟩ := not_or.1 h
  obtain hshort | hlong := Nat.lt_or_ge (b.pending.length + data.length) 4
  · exact ⟨_, _, .inl rfl, fun p _ => writeBlock_of_short hn hshort⟩
  cases hs : b.state with
  | failure => exact absurd hs hn
  | empty =>
    have hgood : 4 ≤ data.length ∧ data.head? = some delim := by simpa [hs, hlong] using hempty
    obtain ⟨new, r, hr, heq⟩ := writeEmpty_checked hgood.1 hgood.2 b
    exact ⟨new, r, hr, fun p hp => (writeBlock_of_empty hs hlong).trans (heq p hp)⟩
  | inProgress =>
    obtain ⟨new, r, hr, heq⟩ := writeInProgress_checked (buf := b.pending ++ data) (by simpa using hlong) b
    exact ⟨new, r, hr, fun p hp => (writeBlock_of_inProgress hs hlong).trans (heq p hp)⟩

/-- The exempt branches drop the chunk, with the error of the branch (R74, R77, R87). -/
theorem writeBlock_unchecked {p : Params} {data : List Byte} (h : noCheck p.delim b data) :
    writeBlock data p b =
      (b, errResponse (if b.state = .failure then .streamFailure
        else if data.length < 4 then .framingTooLittleData else .framingDelimiterMismatch)) := by
  obtain hf | ⟨hs, hl, hbad⟩ := h
  · rw [if_pos hf, writeBlock_of_failure hf]
  rw [if_neg (by simp [hs])]
  by_cases hshort : data.length < 4
  · rw [if_pos hshort, writeBlock_tooLittle hs hl hshort]
  · rw [if_neg hshort]
    cases data with
    | nil => simp at hshort
    | cons b0 more =>
      exact writeBlock_mismatch_of_empty hs (Nat.le_of_not_lt hshort) (by simpa using hbad.resolve_left hshort)

end checked

/-- An unbounded block commits every candidate (R85). -/
theorem capCheck_unbounded {p : Params} (hm : p.capacityMode = .unbounded) (old new : Block) (r : Response) :
    capCheck p old new r = (new, r) :=
  capCheck_of_withinCaps (by simp [Block.WithinCaps, hm]) old r

/-- An enforcing block turns away a candidate over a cap, and commits any other (R85). -/
theorem capCheck_enforced {p : Params} (hm : p.capacityMode = .enforced) (old new : Block) (r : Response) :
    capCheck p old new r =
      if p.pendingCap < new.pending.length ∨ p.queueDepth < new.decoded.length then (old, errResponse .streamBytesFull)
      else (new, r) := by
  simp [capCheck, overCaps, hm, raise]

theorem capCheck_status_ne_tooLittle {p : Params} {old new : Block} {r : Response} (hr : IsCandidateResponse r) :
    (capCheck p old new r).2.word.extractLsb' 0 8 ≠ 0x01#8 := by
  obtain ⟨-, h⟩ | ⟨-, h⟩ := capCheck_cases p old new r <;> rw [h]
  · obtain rfl | rfl := hr <;> simp [statusCode]
  · simp [statusCode]

/-- WRITE answers FramingTooLittleData in no other branch than the one R87 names. -/
theorem writeBlock_status_ne_tooLittle {p : Params} {b : Block} {data : List Byte}
    (h : ¬ (b.state = .empty ∧ 4 ≤ b.pending.length + data.length ∧ data.length < 4)) :
    (writeBlock data p b).2.word.extractLsb' 0 8 ≠ 0x01#8 := by
  by_cases hx : noCheck p.delim b data
  · rw [writeBlock_unchecked hx]
    obtain hf | ⟨hs, hl, -⟩ := hx
    · simp [hf, statusCode]
    · have hlong : ¬ data.length < 4 := fun hlt => h ⟨hs, hl, hlt⟩
      simp [hs, hlong, statusCode]
  · obtain ⟨new, r, hr, heq⟩ := writeBlock_checked hx
    rw [heq p rfl]
    exact capCheck_status_ne_tooLittle hr

/-! ## The tag is opaque -/

section tags
variable {q : List Frame} {tag₁ tag₂ b0 hi lo : Byte} {b₁ b₂ : Block} {p : Params}

/-- Two blocks alike but for a tag: in the byte at index 1 of PENDING, or in a frame queued behind `q` (R89). -/
def AlikeButTag (q : List Frame) (tag₁ tag₂ : Byte) (b₁ b₂ : Block) : Prop :=
  b₁.state = b₂.state ∧
    ((b₁.decoded = q ∧ b₂.decoded = q ∧ b₁.pending.set 1 0 = b₂.pending.set 1 0) ∨
     (∃ payload, b₁.decoded = q ++ [⟨tag₁, payload⟩] ∧ b₂.decoded = q ++ [⟨tag₂, payload⟩] ∧ b₁.pending = b₂.pending))

/-- The same response, and blocks alike but for a tag. -/
def AnswersAlike (q : List Frame) (tag₁ tag₂ : Byte) (x₁ x₂ : Block × Response) : Prop :=
  x₁.2 = x₂.2 ∧ AlikeButTag q tag₁ tag₂ x₁.1 x₂.1

/-- The caps see only lengths, which the tag does not change. -/
theorem AlikeButTag.overCaps_eq (h : AlikeButTag q tag₁ tag₂ b₁ b₂) (p : Params) : overCaps p b₁ = overCaps p b₂ := by
  obtain ⟨-, ⟨hq₁, hq₂, hpend⟩ | ⟨payload, hq₁, hq₂, hpend⟩⟩ := h
  · have hlen := congrArg List.length hpend
    rw [List.length_set, List.length_set] at hlen
    simp [overCaps, hq₁, hq₂, hlen]
  · simp [overCaps, hq₁, hq₂, hpend]

theorem capCheck_alike {new₁ new₂ : Block} (hold : AlikeButTag q tag₁ tag₂ b₁ b₂)
    (hnew : AlikeButTag q tag₁ tag₂ new₁ new₂) (r : Response) :
    AnswersAlike q tag₁ tag₂ (capCheck p b₁ new₁ r) (capCheck p b₂ new₂ r) := by
  rw [capCheck, capCheck, hnew.overCaps_eq p]
  split
  · exact ⟨rfl, hold⟩
  · exact ⟨rfl, hnew⟩

/-- InProgress path: the tag chooses no branch. -/
theorem writeInProgress_alike {rest : List Byte} (h : AlikeButTag q tag₁ tag₂ b₁ b₂) (hq₁ : b₁.decoded = q)
    (hq₂ : b₂.decoded = q) :
    AnswersAlike q tag₁ tag₂ (writeInProgress (b0 :: tag₁ :: hi :: lo :: rest) p b₁)
      (writeInProgress (b0 :: tag₂ :: hi :: lo :: rest) p b₂) := by
  cases bufferForm p.delim (b0 :: tag₁ :: hi :: lo :: rest) with
  | short hl => simp at hl; omega
  | mismatch _ _ hb _ h0 hp =>
    cases hb
    rw [writeInProgress_error hp, writeInProgress_error (parseHeader_of_mismatch (by simp) h0)]
    refine capCheck_alike h ?_ _
    exact ⟨rfl, .inl ⟨hq₁, hq₂, rfl⟩⟩
  | equal _ _ _ _ hb hs =>
    cases hb
    rw [writeInProgress_equal hs, writeInProgress_equal hs, hq₁, hq₂]
    refine capCheck_alike h ?_ _
    exact ⟨rfl, .inr ⟨_, rfl, rfl, rfl⟩⟩
  | less _ _ _ _ hb hs =>
    cases hb
    rw [writeInProgress_less hs, writeInProgress_less hs]
    refine capCheck_alike h ?_ _
    exact ⟨rfl, .inl ⟨hq₁, hq₂, rfl⟩⟩
  | greater _ _ _ _ _ hb hs ht =>
    cases hb
    rw [writeInProgress_greater hs ht, writeInProgress_greater hs ht, hq₁, hq₂]
    refine capCheck_alike h ?_ _
    exact ⟨rfl, .inr ⟨_, rfl, rfl, rfl⟩⟩

/-- As many bytes from the front of two buffers that differ in the byte at index 1 differ there at most. -/
theorem set_one_eq_of_append {pre₁ pre₂ data₁ data₂ rest : List Byte} (hlen : pre₁.length = pre₂.length)
    (h₁ : pre₁ ++ data₁ = b0 :: tag₁ :: rest) (h₂ : pre₂ ++ data₂ = b0 :: tag₂ :: rest) :
    pre₁.set 1 0 = pre₂.set 1 0 := by
  have hpre₁ : pre₁ = (b0 :: tag₁ :: rest).take pre₁.length := by rw [← h₁, List.take_left]
  have hpre₂ : pre₂ = (b0 :: tag₂ :: rest).take pre₁.length := by rw [← h₂, hlen, List.take_left]
  rw [hpre₁, hpre₂, ← List.take_set, ← List.take_set]
  rfl

/-- WRITE does not look at the tag. -/
theorem writeBlock_alike {data₁ data₂ rest : List Byte} (hst : b₁.state = b₂.state) (hq : b₁.decoded = b₂.decoded)
    (hlen : b₁.pending.length = b₂.pending.length) (hc : b₁.EmptyClean)
    (hb₁ : b₁.pending ++ data₁ = b0 :: tag₁ :: hi :: lo :: rest)
    (hb₂ : b₂.pending ++ data₂ = b0 :: tag₂ :: hi :: lo :: rest) :
    AnswersAlike b₁.decoded tag₁ tag₂ (writeBlock data₁ p b₁) (writeBlock data₂ p b₂) := by
  have hstay : AlikeButTag b₁.decoded tag₁ tag₂ b₁ b₂ :=
    ⟨hst, .inl ⟨rfl, hq.symm, set_one_eq_of_append hlen hb₁ hb₂⟩⟩
  cases hs : b₁.state with
  | failure =>
    rw [writeBlock_of_failure hs, writeBlock_of_failure (hst ▸ hs)]
    exact ⟨rfl, hstay⟩
  | inProgress =>
    rw [writeBlock_header_of_inProgress hs hb₁, writeBlock_header_of_inProgress (hst ▸ hs) hb₂]
    exact writeInProgress_alike hstay rfl hq.symm
  | empty =>
    have hs₂ : b₂.state = .empty := hst ▸ hs
    have hp₁ : b₁.pending = [] := hc hs
    have hp₂ : b₂.pending = [] := List.eq_nil_of_length_eq_zero (by rw [← hlen, hp₁]; rfl)
    by_cases h0 : b0 = p.delim
    · subst h0
      rw [writeBlock_header_of_clean (by simp [hs]) hc hb₁, writeBlock_header_of_clean (by simp [hs₂]) (fun _ => hp₂) hb₂]
      exact writeInProgress_alike hstay rfl hq.symm
    · rw [hp₁, List.nil_append] at hb₁
      rw [hp₂, List.nil_append] at hb₂
      rw [hb₁, hb₂, writeBlock_mismatch_of_empty hs (by simp) h0, writeBlock_mismatch_of_empty hs₂ (by simp) h0]
      exact ⟨rfl, hstay⟩

end tags

/-! ## Fragments of one frame -/

section fragments
variable {p : Params} {b : Block} {tag hi lo : Byte} {payload : List Byte}

/-- One instruction, and then the others. -/
theorem runInstrs_cons_of {b₁ b₂ : Block} {i : Instr} {is : List Instr} {r : Response} {rs : List Response}
    (h : instrBlock i p b = (b₁, r)) (hrest : runInstrs p b₁ is = (b₂, rs)) :
    runInstrs p b (i :: is) = (b₂, r :: rs) := by
  simp [Prod.ext_iff, h, hrest]

/-- Instructions one after the other, in two parts. -/
theorem runInstrs_append {b₁ b₂ : Block} {is js : List Instr} {rs rs' : List Response}
    (h₁ : runInstrs p b is = (b₁, rs)) (h₂ : runInstrs p b₁ js = (b₂, rs')) :
    runInstrs p b (is ++ js) = (b₂, rs ++ rs') := by
  induction is generalizing b rs with
  | nil => cases h₁; exact h₂
  | cons i is ih =>
    cases h₁
    exact runInstrs_cons_of rfl (ih rfl)

/-- The whole state after instructions on the served block. -/
theorem execAll_eq_of_served {s : State} (h : Served s b) (is : List Instr) :
    execAll is s = .next
      { s with
        blocks := s.blocks.set s.port (runInstrs s.params b is).1
        responses := s.responses ++ (runInstrs s.params b is).2.map (fun r => (s.port, r)) } := by
  induction is generalizing s b with
  | nil => simp [execAll, set_served h]
  | cons i is ih =>
    rw [execAll_cons_of_next (exec_of_served h), ih (State.answer_served h _ _)]
    simp [State.answer]

/-- The whole state after instructions that all answer OK. -/
theorem execAll_of_ok {s : State} {b' : Block} {is : List Instr} {n : Nat} (h : Served s b)
    (hrun : runInstrs s.params b is = (b', List.replicate n okResponse)) :
    execAll is s = .next
      { s with
        blocks := s.blocks.set s.port b'
        responses := s.responses ++ List.replicate n (s.port, oneWord 0x00000000) } := by
  rw [execAll_eq_of_served h, hrun, List.map_replicate]
  rfl

/-- A part of a frame that leaves some of it to come either is short or has the header and too few payload bytes. -/
theorem short_or_less {delim : Byte} {buf more : List Byte} (hm : more ≠ [])
    (h : buf ++ more = delim :: tag :: hi :: lo :: payload) :
    buf.length < 4 ∨ ∃ part, buf = delim :: tag :: hi :: lo :: part ∧ part.length < payload.length := by
  match buf, h with
  | [], _ | [_], _ | [_, _], _ | [_, _, _], _ => exact .inl (by simp)
  | _ :: _ :: _ :: _ :: part, h =>
    cases h
    exact .inr ⟨part, rfl, by simpa using List.length_pos_iff.2 hm⟩

/-- A chunk that does not complete the frame is appended to PENDING. -/
theorem writeBlock_fragment {data more : List Byte} (hn : b.NotFailed) (hc : b.EmptyClean)
    (hl : payload.length = hi.toNat * 256 + lo.toNat) (hm : more ≠ [])
    (hb : (b.pending ++ data) ++ more = p.delim :: tag :: hi :: lo :: payload)
    (hcaps : Block.WithinCaps p { b with state := .inProgress, pending := b.pending ++ data }) :
    writeBlock data p b = ({ b with state := .inProgress, pending := b.pending ++ data }, okResponse) := by
  refine Eq.trans ?_ (capCheck_of_withinCaps hcaps b okResponse)
  obtain hshort | ⟨part, hbuf, hpart⟩ := short_or_less hm hb
  · exact writeBlock_of_short hn (by simpa using hshort)
  · rw [writeBlock_header_of_clean hn hc hbuf, writeInProgress_less (hl ▸ hpart), hbuf]

/-- Chunks that do not complete the frame all answer OK, queue nothing and gather in PENDING. -/
theorem runInstrs_fragments {chunks : List (List Byte)} {more : List Byte} (hn : b.NotFailed) (hc : b.EmptyClean)
    (hl : payload.length = hi.toNat * 256 + lo.toNat) (hm : more ≠ [])
    (hb : b.pending ++ (chunks.flatten ++ more) = p.delim :: tag :: hi :: lo :: payload)
    (hcaps : p.capacityMode = .enforced → payload.length + 4 ≤ p.pendingCap ∧ b.decoded.length + 1 ≤ p.queueDepth) :
    ∃ b', runInstrs p b (chunks.map Instr.write) = (b', List.replicate chunks.length okResponse) ∧
      b'.NotFailed ∧ b'.EmptyClean ∧ b'.pending = b.pending ++ chunks.flatten ∧ b'.decoded = b.decoded := by
  induction chunks generalizing b with
  | nil => exact ⟨b, rfl, hn, hc, by simp, rfl⟩
  | cons data chunks ih =>
    have hb' : (b.pending ++ data) ++ (chunks.flatten ++ more) = p.delim :: tag :: hi :: lo :: payload := by
      simpa using hb
    have hlen := congrArg List.length hb'
    simp only [List.length_append, List.length_cons] at hlen
    have hwrite := writeBlock_fragment hn hc hl (List.append_ne_nil_of_right_ne_nil _ hm) hb' fun he => by
      obtain ⟨hp, hq⟩ := hcaps he
      exact ⟨by simp; omega, Nat.le_of_succ_le hq⟩
    obtain ⟨b', hrun, hn', hc', hpend, hdec⟩ := ih (b := { b with state := .inProgress, pending := b.pending ++ data })
      (by simp) (by simp) hb' hcaps
    refine ⟨b', ?_, hn', hc', by simpa using hpend, hdec⟩
    exact runInstrs_cons_of hwrite hrun

/-- The chunk that completes the frame queues it (R78, R82). -/
theorem writeBlock_completes {data : List Byte} (hn : b.NotFailed) (hc : b.EmptyClean)
    (hl : payload.length = hi.toNat * 256 + lo.toNat)
    (hb : b.pending ++ data = p.delim :: tag :: hi :: lo :: payload)
    (hcaps : Block.WithinCaps p { state := .empty, pending := [], decoded := b.decoded ++ [⟨tag, payload⟩] }) :
    writeBlock data p b =
      ({ state := .empty, pending := [], decoded := b.decoded ++ [⟨tag, payload⟩] }, okResponse) := by
  rw [writeBlock_header_of_clean hn hc hb, writeInProgress_equal hl]
  exact capCheck_of_withinCaps hcaps b okResponse

/-- Empty chunks with nothing pending answer OK and leave InProgress (R63, R75). -/
theorem runInstrs_empty_chunks {st : EngineState} {q : List Frame} (hs : st ≠ .failure)
    (hcaps : Block.WithinCaps p { state := st, pending := [], decoded := q }) (k : Nat) :
    runInstrs p { state := st, pending := [], decoded := q } ((List.replicate k []).map Instr.write) =
      ({ state := if k = 0 then st else .inProgress, pending := [], decoded := q }, List.replicate k okResponse) := by
  induction k generalizing st with
  | zero => rfl
  | succ k ih =>
    have hstep := pump_short (b := { state := st, pending := [], decoded := q }) hs (by simp) hcaps
    have hrest := ih (st := .inProgress) (by simp) hcaps
    rw [ite_self] at hrest
    exact runInstrs_cons_of hstep hrest

end fragments

/-! ## The statements -/

/-- Settles O24: the fragments gather in PENDING, the last chunk completes the frame, and empty chunks only move STATE. -/
theorem fragmentationDoesNotMatter : Obligations.FragmentationDoesNotMatter := by
  intro s b tag hi lo payload before last k h hs hpend hl hlast hb hcaps
  obtain ⟨b₁, hbefore, hn, hc, hpend₁, hdec⟩ := runInstrs_fragments (b := b) (chunks := before) (more := last)
    (by simp [hs]) (fun _ => hpend) hl hlast (by rw [hpend]; exact hb) hcaps
  have hcaps' : Block.WithinCaps s.params { state := .empty, pending := [], decoded := b.decoded ++ [⟨tag, payload⟩] } :=
    fun he => ⟨Nat.zero_le _, by simpa using (hcaps he).2⟩
  have hwrite : writeBlock last s.params b₁ = _ :=
    writeBlock_completes hn hc hl (by rw [hpend₁, hpend]; exact hb) (hdec ▸ hcaps')
  rw [hdec] at hwrite
  have hwhole := runInstrs_append hbefore (runInstrs_cons_of (i := .write last) hwrite (runInstrs_nil _ _))
  rw [← List.replicate_succ'] at hwhole
  have hmore := runInstrs_append hwhole (runInstrs_empty_chunks (by simp) hcaps' k)
  rw [List.replicate_append_replicate] at hmore
  refine ⟨?_, ?_, ?_⟩
  · obtain ⟨t, hexec, hserved, hresp⟩ := execAll_of_served h (before.map Instr.write)
    rw [hbefore] at hserved hresp
    exact ⟨t, b₁, hexec, hserved, hdec, by rw [hresp, List.map_replicate]; rfl⟩
  · rw [List.map_append]
    exact execAll_of_ok h hwhole
  · rw [List.map_append, List.map_append]
    exact execAll_of_ok h hmore

/-- Settles O10. -/
theorem writeInFailureIsRejected : Obligations.WriteInFailureIsRejected := fun _ _ data h hf =>
  answers_of_instrBlock h (writeBlock_of_failure hf data)

/-- Settles O11: the guard outside Failure, and the rejection in Failure. -/
theorem shortInputIsKept : Obligations.ShortInputIsKept := fun _ _ data h hl =>
  ⟨fun hs => answers_write_of_capCheck h (writeBlock_of_short hs hl),
    fun hf => answers_of_instrBlock h (writeBlock_of_failure hf data)⟩

/-- Settles O12: a reachable Empty block has nothing pending, so its four bytes are the chunk's. -/
theorem headerErrorOnEmptyDropsTheChunk : Obligations.HeaderErrorOnEmptyDropsTheChunk := by
  intro s b data h hs hl
  refine ⟨fun hshort => answers_of_instrBlock h (writeBlock_tooLittle hs hl hshort), ?_, fun hreach => ?_⟩
  · rintro b0 more rfl hlong h0
    exact answers_of_instrBlock h (writeBlock_mismatch_of_empty hs hlong h0)
  · obtain ⟨-, hclean, -, -⟩ := hreach.good
    simpa [hclean hs] using hl

/-- Settles O13: the Equal branch of the Empty path. -/
theorem exactFrameOnEmptyIsQueued : Obligations.ExactFrameOnEmptyIsQueued := fun _ _ _ _ _ _ h hs hl =>
  answers_write_of_capCheck h ((writeBlock_header_of_empty hs).trans (writeEmpty_equal hl))

/-- Settles O14: the Less branch of the Empty path. -/
theorem partialFrameOnEmptyIsKept : Obligations.PartialFrameOnEmptyIsKept := fun _ _ _ _ _ _ h hs hl =>
  answers_write_of_capCheck h ((writeBlock_header_of_empty hs).trans (writeEmpty_less hl))

/-- Settles O15: the Greater branch of the Empty path. -/
theorem longChunkOnEmptyKeepsItsTail : Obligations.LongChunkOnEmptyKeepsItsTail := fun _ _ _ _ _ _ _ h hs hl ht =>
  answers_write_of_capCheck h ((writeBlock_header_of_empty hs).trans (writeEmpty_greater hl ht))

/-- Settles O16: the header error of the InProgress path. -/
theorem mismatchInProgressKeepsTheBytes : Obligations.MismatchInProgressKeepsTheBytes := by
  intro s b data b0 more h hs hb hl h0 hcaps
  have hp : parseHeader s.params.delim (b.pending ++ data) = .error .delimiterMismatch := by
    rw [hb] at hl ⊢
    exact parseHeader_of_mismatch hl h0
  exact answers_write_of_capCheck h ((writeBlock_buffer_of_inProgress hs rfl hl).trans (writeInProgress_error hp)) hcaps

/-- Settles O17: the Equal branch of the InProgress path. -/
theorem frameCompletesInProgress : Obligations.FrameCompletesInProgress := fun _ _ _ _ _ _ _ h hs hb hl =>
  answers_write_of_capCheck h ((writeBlock_header_of_inProgress hs hb).trans (writeInProgress_equal hl))

/-- Settles O18: the Less branch of the InProgress path, whose candidate is the combined buffer. -/
theorem partialFrameInProgressGrows : Obligations.PartialFrameInProgressGrows := by
  intro s b data tag hi lo part h hs hb hl hcaps
  rw [hb] at hcaps ⊢
  exact answers_write_of_capCheck h ((writeBlock_header_of_inProgress hs hb).trans (writeInProgress_less hl)) hcaps

/-- Settles O19: the Greater branch of the InProgress path. -/
theorem longBufferInProgressKeepsItsTail : Obligations.LongBufferInProgressKeepsItsTail :=
  fun _ _ _ _ _ _ _ _ h hs hb hl ht =>
    answers_write_of_capCheck h ((writeBlock_header_of_inProgress hs hb).trans (writeInProgress_greater hl ht))

/-- Settles O20: the exempt branches do not read the caps, and every other branch checks one candidate in both modes. -/
theorem capacityCheckRejectsWhole : Obligations.CapacityCheckRejectsWhole := by
  intro s b data h hm
  have hfree : Served { s with params := { s.params with capacityMode := .unbounded } } b := h
  by_cases hx : noCheck s.params.delim b data
  · refine ⟨_, _, answers_of_instrBlock hfree (writeBlock_unchecked hx), ?_⟩
    rw [if_pos hx]
    exact answers_of_instrBlock h (writeBlock_unchecked hx)
  · obtain ⟨new, r, -, heq⟩ := writeBlock_checked hx
    have hunbounded := (heq { s.params with capacityMode := .unbounded } rfl).trans (capCheck_unbounded rfl b new r)
    refine ⟨new, r, answers_of_instrBlock hfree hunbounded, ?_⟩
    have hwrite := (heq s.params rfl).trans (capCheck_enforced hm b new r)
    rw [if_neg hx]
    split_ifs at hwrite ⊢
    · exact answers_of_instrBlock h hwrite
    · exact answers_of_instrBlock h hwrite

/-- Settles O21, by what WRITE can push. -/
theorem writeQueuesAtMostOneFrame : Obligations.WriteQueuesAtMostOneFrame := by
  intro s b data h
  refine ⟨_, _, answers_of_served h (.write data), ?_⟩
  obtain ⟨pushed, hpushed, hlen⟩ := (writeBlock_effect data s.params b).pushes
  match pushed, hlen with
  | [], _ => exact .inl (hpushed.trans (List.append_nil _))
  | [f], _ => exact .inr ⟨f, hpushed⟩

/-- Settles O22: in the branch R87 names the chunk is dropped, no other branch answers so, and a reachable Empty block has
nothing pending. -/
theorem writeNeverTooLittleFromCleanStates : Obligations.WriteNeverTooLittleFromCleanStates := by
  intro s b data h
  by_cases hlaunch : b.state = .empty ∧ 4 ≤ b.pending.length + data.length ∧ data.length < 4
  · obtain ⟨hs, hl, hshort⟩ := id hlaunch
    have hpend : b.pending ≠ [] := fun hnil => by simp [hnil] at hl; omega
    refine ⟨_, _, answers_of_instrBlock h (writeBlock_tooLittle hs hl hshort), ?_, fun _ => ⟨hpend, rfl, rfl⟩, ?_⟩
    · exact iff_of_true (errResponse_status _) hlaunch
    · intro hreach
      obtain ⟨-, hclean, -, -⟩ := hreach.good
      exact absurd (hclean hs) hpend
  · have hne := writeBlock_status_ne_tooLittle (p := s.params) hlaunch
    exact ⟨_, _, answers_of_served h (.write data), iff_of_false hne hlaunch, fun h1 => absurd h1 hne, fun _ => hne⟩

/-- Settles O23: WRITE does not look at the tag, at the parameters that both states have. -/
theorem tagNeverChangesABranch : Obligations.TagNeverChangesABranch := by
  intro s₁ s₂ b₁ b₂ data₁ data₂ b0 tag₁ tag₂ hi lo rest h₁ h₂ hp hst hq hlen hc hb₁ hb₂
  obtain ⟨hr, hstate, heffect⟩ := writeBlock_alike (p := s₁.params) hst hq hlen hc hb₁ hb₂
  refine ⟨_, (writeBlock data₂ s₁.params b₂).1, _, answers_of_served h₁ (.write data₁), ?_, hstate, hq ▸ heffect⟩
  rw [instrBlock, hr, hp]
  exact answers_of_served h₂ (.write data₂)

end Sys2Proof.Machine

/-! The statements on retrieval and control: NEXT, STATUS and RESET, their command words and their answers
(spec/42_retrieval_and_control.md R91 to R96). -/

namespace Sys2Proof.Machine

open Sys2Proof.Cert

/-- A command that takes no operand has one command word: its opcode with LEN 0 (R54, R55). -/
theorem selects_iff_of_no_operand {w : Word} {operand : List Byte} {i : Instr} (hcmd : i.isCommand = true)
    (hi : operandOf i = []) (hlen : operand.length = cmdLen w) :
    Selects w operand i ↔ w = cmdWord (opcodeOf i) 0 := by
  rw [Selects, instrOf_eq_some_iff, hi]
  constructor
  · rintro ⟨-, hop, rfl⟩
    rw [word_eq_cmdWord w, hop, ← hlen, List.length_nil]
  · rintro rfl
    rw [cmdLen_cmdWord _ (Nat.zero_le _)] at hlen
    exact ⟨hcmd, cmdOp_cmdWord _ 0, List.eq_nil_of_length_eq_zero hlen⟩

/-! ## Response words, as numbers -/

/-- The response of NEXT: the length over the tag over OK, which is zero (R57). -/
theorem frameResponse_eq_nextResponse (f : Frame) : frameResponse f = nextResponse f := by
  have htag := f.tag.isLt
  have hword : rspWord (BitVec.ofNat 16 f.payload.length) f.tag .ok =
      BitVec.ofNat 32 (f.payload.length * 65536 + f.tag.toNat * 256) := by
    apply BitVec.eq_of_toNat_eq
    simp only [toNat_rspWord, BitVec.toNat_ofNat, statusCode]
    omega
  rw [frameResponse, nextResponse, hword]

/-- The first word of STATUS: the saturated queue count, and the encoding of STATE over OK (R16, R57, R93). -/
theorem toNat_statusResponse_word (st : EngineState) (queueCount pendingLen : Nat) :
    (statusResponse st queueCount pendingLen).word.toNat =
      min queueCount 65535 * 65536 + (stateCode st).toNat * 256 := by
  simp only [statusResponse, toNat_rspWord, toNat_append_mul, BitVec.toNat_ofNat, statusCode]
  omega

/-- A number saturated at 2^32 - 1 fits a word (R93). -/
theorem toNat_saturated_word (n : Nat) : (BitVec.ofNat 32 (min n 0xFFFFFFFF)).toNat = min n 4294967295 := by
  rw [BitVec.toNat_ofNat]
  omega

/-! ## NEXT outside Failure -/

section next
variable (p : Params) {b : Block}

theorem nextBlock_of_nil (hs : b.state ≠ .failure) (hq : b.decoded = []) :
    nextBlock p b = (b, errResponse .streamMessageCountZero) := by
  simp [nextBlock, hs, hq, raise]

theorem nextBlock_of_cons {f : Frame} {q : List Frame} (hs : b.state ≠ .failure) (hq : b.decoded = f :: q) :
    nextBlock p b = ({ b with decoded := q }, nextResponse f) := by
  simp [nextBlock, hs, hq, frameResponse_eq_nextResponse]

/-- As many NEXTs as there are frames take them all, in order (R96). -/
theorem runInstrs_next_drains {q : List Frame} (hs : b.state ≠ .failure) (hq : b.decoded = q) :
    runInstrs p b (List.replicate q.length .next) = ({ b with decoded := [] }, q.map nextResponse) := by
  induction q generalizing b with
  | nil => cases b; cases hq; rfl
  | cons f q ih => exact runInstrs_cons_of (nextBlock_of_cons p hs hq) (ih (b := { b with decoded := q }) hs rfl)

/-- One NEXT more finds the queue empty (R91, R96). -/
theorem runInstrs_next_drains_succ {q : List Frame} (hs : b.state ≠ .failure) (hq : b.decoded = q) :
    runInstrs p b (List.replicate (q.length + 1) .next) =
      ({ b with decoded := [] }, q.map nextResponse ++ [errResponse .streamMessageCountZero]) := by
  have hlast := nextBlock_of_nil p (b := { b with decoded := [] }) hs rfl
  rw [List.replicate_succ']
  exact runInstrs_append (runInstrs_next_drains p hs hq) (runInstrs_cons_of hlast (runInstrs_nil _ _))

end next

/-! ## The statements -/

/-- Settles O30: the rule's three branches are Failure, an empty queue and a queue with a head. -/
theorem nextReturnsTheOldestFrame : Obligations.NextReturnsTheOldestFrame := by
  refine ⟨fun _ _ => selects_iff_of_no_operand rfl rfl,
    fun s b h => ⟨fun hf => ?_, fun hs hq => ?_, fun hs f q hq => ?_⟩⟩
  · exact answers_of_instrBlock h (nextBlock_of_failure (p := s.params) hf)
  · exact answers_of_instrBlock h (nextBlock_of_nil s.params hs hq)
  · exact answers_of_instrBlock h (nextBlock_of_cons s.params hs hq)

/-- Settles O31, by the run of NEXTs on the served block. -/
theorem nextDrainsTheQueueInOrder : Obligations.NextDrainsTheQueueInOrder := by
  intro q s b h hs hq
  rw [execAll_eq_of_served h, execAll_eq_of_served h, runInstrs_next_drains _ hs hq, runInstrs_next_drains_succ _ hs hq,
    List.map_append, List.map_map, List.append_assoc]
  exact ⟨rfl, rfl⟩

/-- Settles O32: the rule keeps the block, and its two words are the counts and the state as numbers. -/
theorem statusReportsStateAndCounts : Obligations.StatusReportsStateAndCounts := by
  refine ⟨fun _ _ => selects_iff_of_no_operand rfl rfl, fun s b h => ?_⟩
  refine ⟨_, _, answers_of_served h .status, ?_, toNat_saturated_word b.pending.length⟩
  refine (toNat_statusResponse_word b.state b.queueCount b.pendingLen).trans ?_
  cases b.state <;> rfl

/-- Settles O33: the rule does not look at the block. -/
theorem resetFromAnyState : Obligations.ResetFromAnyState :=
  ⟨fun _ _ => selects_iff_of_no_operand rfl rfl, fun _ _ h => answers_of_served h .reset⟩

end Sys2Proof.Machine

/-! The statements on exceptions: what an error leaves of the block, and which statuses are produced
(spec/60_exceptions.md R97, R104, R105). -/

namespace Sys2Proof.Machine

open Sys2Proof.Cert

/-! ## What an error leaves of the block -/

section errors
variable {p : Params} {b : Block} {data : List Byte}

/-- A WRITE that goes through the capacity check answers one of three statuses (R85). -/
theorem writeBlock_response_of_checked (h : ¬ noCheck p.delim b data) :
    ∃ code ∈ [Status.ok, .framingDelimiterMismatch, .streamBytesFull], (writeBlock data p b).2 = errResponse code := by
  obtain ⟨new, r, hr, heq⟩ := writeBlock_checked h
  rw [heq p rfl]
  obtain ⟨-, hcap⟩ | ⟨-, hcap⟩ := capCheck_cases p b new r <;> rw [hcap]
  · obtain rfl | rfl := hr
    · exact ⟨.ok, by simp, rfl⟩
    · exact ⟨.framingDelimiterMismatch, by simp, rfl⟩
  · exact ⟨.streamBytesFull, by simp, rfl⟩

/-- An InProgress block reports no error but a mismatch and StreamBytesFull: no header is parsed on fewer than four bytes
(R81, R85). -/
theorem errResponse_word_of_inProgress {b' : Block} {code : Status} (hs : b.state = .inProgress)
    (h : writeBlock data p b = (b', errResponse code)) (hok : code ≠ .ok) (hfull : code ≠ .streamBytesFull) :
    (errResponse code).word = 0x00000002#32 := by
  have hchecked : ¬ noCheck p.delim b data := by simp [noCheck, hs]
  obtain ⟨code', hmem, hr⟩ := writeBlock_response_of_checked hchecked
  rw [h] at hr
  have hword : (errResponse code).word = (errResponse code').word := congrArg Response.word hr
  simp only [List.mem_cons, List.not_mem_nil, or_false] at hmem
  obtain rfl | rfl | rfl := hmem
  · exact absurd (eq_streamBytesFull_of_word hok (.inl hword)) hfull
  · exact hword
  · exact absurd (eq_streamBytesFull_of_word hok (.inr hword)) hfull

/-- A WRITE that answers an error drops its chunk, or keeps it behind a mismatch on the InProgress path (R81, R97). -/
theorem writeBlock_of_error (hr : (writeBlock data p b).2.word.extractLsb' 0 8 ≠ 0x00#8) :
    (writeBlock data p b).1 = b ∨
      (b.state = .inProgress ∧ (writeBlock data p b).2.word = 0x00000002#32 ∧
        (writeBlock data p b).1 = { b with pending := b.pending ++ data }) := by
  have heffect := writeBlock_effect data p b
  generalize hw : writeBlock data p b = x at heffect hr ⊢
  cases heffect with
  | dropped => exact .inl rfl
  | keptBad hs hok hfull =>
    exact .inr ⟨hs, errResponse_word_of_inProgress hs hw hok hfull, by rw [hs]⟩
  | kept | queued => exact absurd okResponse_status hr

end errors

/-- Settles O47: WRITE and FRAME by what an error leaves of the chunk; the other instructions put back the block they read,
or answer OK. -/
theorem errorsChangeOnlyKeptBytes : Obligations.ErrorsChangeOnlyKeptBytes := by
  intro i s b h
  refine ⟨_, _, answers_of_served h i, fun hr => ?_⟩
  cases i with
  | write data =>
    exact (writeBlock_of_error hr).imp_right fun ⟨hs, hword, hkept⟩ => ⟨hs, hword, .inl ⟨data, rfl, hkept⟩⟩
  | frame tag payload =>
    exact (writeBlock_of_error hr).imp_right fun ⟨hs, hword, hkept⟩ => ⟨hs, hword, .inr ⟨tag, payload, rfl, hkept⟩⟩
  | next =>
    obtain ⟨code, -, hnext⟩ | ⟨f, q, -, hnext⟩ := nextBlock_cases s.params b
    · exact .inl (congrArg Prod.fst hnext)
    · rw [instrBlock, hnext] at hr
      exact absurd (frameResponse_status f) hr
  | parse data => exact .inl (parseBlock_fst data s.params b)
  | status => exact .inl rfl
  | reset => exact absurd okResponse_status hr

/-! ## The statuses that are produced -/

/-- The codes of the seven statuses the block produces (R58, R104, R105). -/
def producedCodes : List Byte := [0x00, 0x01, 0x02, 0x03, 0x04, 0x05, 0x0F]

/-- The response reports one of the seven statuses. -/
def Response.Produced (r : Response) : Prop := r.word.extractLsb' 0 8 ∈ producedCodes

theorem errResponse_produced {code : Status} (h : statusCode code ∈ producedCodes) : (errResponse code).Produced := by
  rwa [Response.Produced, errResponse_status]

theorem produced_of_ok {r : Response} (h : r.word.extractLsb' 0 8 = 0x00#8) : r.Produced := by
  rw [Response.Produced, h]
  decide

section produced
variable (p : Params) (b : Block)

/-- WRITE answers the error of an exempt branch, or one of the three statuses behind the capacity check. -/
theorem writeBlock_produced (data : List Byte) : (writeBlock data p b).2.Produced := by
  by_cases hx : noCheck p.delim b data
  · rw [writeBlock_unchecked hx]
    apply errResponse_produced
    split_ifs <;> decide
  · obtain ⟨code, hmem, hr⟩ := writeBlock_response_of_checked hx
    rw [hr]
    apply errResponse_produced
    revert hmem
    cases code <;> decide

theorem nextBlock_produced : (nextBlock p b).2.Produced := by
  by_cases hs : b.state = .failure
  · rw [nextBlock_of_failure hs]
    exact errResponse_produced (by decide)
  cases hq : b.decoded with
  | nil =>
    rw [nextBlock_of_nil p hs hq]
    exact errResponse_produced (by decide)
  | cons f q =>
    rw [nextBlock_of_cons p hs hq, ← frameResponse_eq_nextResponse]
    exact produced_of_ok (frameResponse_status f)

theorem parseBlock_produced (data : List Byte) : (parseBlock data p b).2.Produced := by
  cases hp : parseHeader p.delim data with
  | error e =>
    rw [parseBlock_error hp]
    exact errResponse_produced (by cases e <;> decide)
  | ok m =>
    rw [parseBlock_ok hp]
    exact produced_of_ok (rspWord_status m.size m.tag .ok)

theorem instrBlock_produced (i : Instr) : (instrBlock i p b).2.Produced := by
  cases i with
  | write data => exact writeBlock_produced p b data
  | next => exact nextBlock_produced p b
  | parse data => exact parseBlock_produced p b data
  | status => exact produced_of_ok (rspWord_status _ _ .ok)
  | reset => exact produced_of_ok okResponse_status
  | frame tag payload => exact writeBlock_produced p b (encodeFrame p.delim tag payload)

/-- A reserved encoding answers Unknown (R105). -/
theorem reservedBlock_produced : (reservedBlock p b).2.Produced :=
  errResponse_produced (by decide)

end produced

/-- Serving a rule adds its one response to the record. -/
theorem serve_adds_produced {s t : State} {rule : Params → Block → Block × Response}
    (hrule : ∀ p b, (rule p b).2.Produced) (h : serve s rule = .next t) :
    ∃ port r, t.responses = s.responses ++ [(port, r)] ∧ r.Produced := by
  obtain ⟨b, -, rfl⟩ := serve_next h
  exact ⟨s.port, _, State.answer_responses s _ _, hrule s.params b⟩

/-- Settles O49: the two steps that serve no command add no response, and a command, defined or reserved, adds one. -/
theorem onlySevenStatusesAreProduced : Obligations.OnlySevenStatusesAreProduced := by
  intro s t h
  obtain ⟨-, rfl⟩ | ⟨_, -, rfl⟩ | ⟨port, _, more, i, rest, -, -, h⟩ | ⟨port, _, more, _, _, rest, -, -, h⟩ := step_cases h
  · exact .inl rfl
  · exact .inl rfl
  · rw [exec_eq_serve] at h
    exact .inr (serve_adds_produced (s := takeCommand s port rest more) (fun p b => instrBlock_produced p b i) h)
  · exact .inr (serve_adds_produced (s := takeCommand s port rest more) reservedBlock_produced h)

end Sys2Proof.Machine

/-! The statements on reset and on the hazards that leave the stream in need of the host: power-on reset, the empty chunk,
the sticky mismatch and the full queue (spec/70_reset_and_hazards.md R118 to R131). -/

namespace Sys2Proof.Machine

open Sys2Proof.Cert

/-! ## WRITE over a cap, and the two paths on one chunk -/

section caps
variable {p : Params} {new : Block}

/-- A candidate over a cap is turned away whole (R85). -/
theorem capCheck_of_not_withinCaps (h : ¬ new.WithinCaps p) (old : Block) (r : Response) :
    capCheck p old new r = (old, errResponse .streamBytesFull) := by
  obtain ⟨hc, -⟩ | ⟨-, hcap⟩ := capCheck_cases p old new r
  · exact absurd ((overCaps_eq_false_iff p new).1 hc) h
  · exact hcap

/-- Only an enforcing block has a cap to break (R85). -/
theorem enforced_of_not_withinCaps (h : ¬ new.WithinCaps p) : p.capacityMode = .enforced :=
  (Classical.not_imp.1 h).1

/-- On a valid header the InProgress path has one candidate, which depends on the queue alone (R82 to R84). -/
theorem writeInProgress_candidate {buf : List Byte} {m : FrameMetadata} (hp : parseHeader p.delim buf = .ok m)
    (q : List Frame) : ∃ new, ∀ b : Block, b.decoded = q → writeInProgress buf p b = capCheck p b new okResponse := by
  cases bufferForm p.delim buf with
  | short _ herr => rw [hp] at herr; cases herr
  | mismatch _ _ _ _ _ herr => rw [hp] at herr; cases herr
  | equal tag hi lo payload hb hs => exact ⟨_, fun b hq => by rw [hb, writeInProgress_equal hs, hq]⟩
  | less tag hi lo part hb hs =>
    exact ⟨{ state := .inProgress, pending := buf, decoded := q }, fun b hq => by rw [hb, writeInProgress_less hs, hq]⟩
  | greater tag hi lo payload tail hb hs ht => exact ⟨_, fun b hq => by rw [hb, writeInProgress_greater hs ht, hq]⟩

end caps

/-- The block put behind the selected port is the one served there. -/
theorem served_set {s : State} {b₀ : Block} (h : Served s b₀) (b : Block) :
    Served { s with blocks := s.blocks.set s.port b } b :=
  State.answer_served h b okResponse

/-! ## A desynchronised stream -/

theorem keptChunks_cons_mismatch (chunk : List Byte) (rest : List (List Byte × Response)) :
    keptChunks ((chunk, oneWord 0x00000002) :: rest) = chunk ++ keptChunks rest :=
  if_pos rfl

theorem keptChunks_cons_full (chunk : List Byte) (rest : List (List Byte × Response)) :
    keptChunks ((chunk, oneWord 0x00000005) :: rest) = keptChunks rest :=
  if_neg (by decide)

/-- A bad header is pending on the InProgress path (R125). -/
def Block.Desynchronised (p : Params) (b : Block) : Prop :=
  b.state = .inProgress ∧ ∃ b0 more, b.pending = b0 :: more ∧ 4 ≤ b.pending.length ∧ b0 ≠ p.delim

section desynchronised
variable {p : Params} {b : Block}

/-- More bytes behind a bad header do not mend it. -/
theorem Block.Desynchronised.append (h : b.Desynchronised p) (data : List Byte) :
    Block.Desynchronised p { b with pending := b.pending ++ data } := by
  obtain ⟨hs, b0, more, hb, hl, h0⟩ := h
  exact ⟨hs, b0, more ++ data, by simp [hb], by simp; omega, h0⟩

theorem Block.Desynchronised.parseHeader_pending (h : b.Desynchronised p) :
    parseHeader p.delim b.pending = .error .delimiterMismatch := by
  obtain ⟨-, b0, more, hb, hl, h0⟩ := h
  rw [hb] at hl ⊢
  exact parseHeader_of_mismatch hl h0

/-- WRITE keeps its chunk behind the bad header, subject to the capacity check (R81). -/
theorem Block.Desynchronised.writeBlock_eq (h : b.Desynchronised p) (data : List Byte) :
    writeBlock data p b =
      capCheck p b { b with pending := b.pending ++ data } (errResponse .framingDelimiterMismatch) := by
  have hp : parseHeader p.delim (b.pending ++ data) = .error .delimiterMismatch := (h.append data).parseHeader_pending
  obtain ⟨hs, _, _, -, hl, -⟩ := h
  rw [writeBlock_of_inProgress hs (Nat.le_add_right_of_le hl), writeInProgress_error hp, ← hs, mapErr]

/-- Any number of WRITEs: the chunks answered with the mismatch gather in PENDING, and the others are not taken. -/
theorem Block.Desynchronised.runInstrs_writes (h : b.Desynchronised p) (chunks : List (List Byte)) :
    ∃ rs, runInstrs p b (chunks.map Instr.write) = ({ b with pending := b.pending ++ keptChunks (chunks.zip rs) }, rs) ∧
      ∀ r ∈ rs, r = oneWord 0x00000002 ∨ (r = oneWord 0x00000005 ∧ p.capacityMode = .enforced) := by
  induction chunks generalizing b with
  | nil => exact ⟨[], by simp [keptChunks], by simp⟩
  | cons data chunks ih =>
    by_cases hcaps : Block.WithinCaps p { b with pending := b.pending ++ data }
    · have hwrite := (h.writeBlock_eq data).trans (capCheck_of_withinCaps hcaps _ _)
      obtain ⟨rs, hrun, hrs⟩ := ih (h.append data)
      refine ⟨oneWord 0x00000002 :: rs, ?_, List.forall_mem_cons.2 ⟨.inl rfl, hrs⟩⟩
      rw [List.zip_cons_cons, keptChunks_cons_mismatch, ← List.append_assoc]
      exact runInstrs_cons_of (i := .write data) hwrite hrun
    · have hwrite := (h.writeBlock_eq data).trans (capCheck_of_not_withinCaps hcaps _ _)
      obtain ⟨rs, hrun, hrs⟩ := ih h
      refine ⟨oneWord 0x00000005 :: rs, ?_, List.forall_mem_cons.2 ⟨.inr ⟨rfl, enforced_of_not_withinCaps hcaps⟩, hrs⟩⟩
      rw [List.zip_cons_cons, keptChunks_cons_full]
      exact runInstrs_cons_of (i := .write data) hwrite hrun

end desynchronised

/-! ## The statements -/

/-- Settles O28, by the run of WRITEs on the desynchronised block. -/
theorem mismatchInProgressIsSticky : Obligations.MismatchInProgressIsSticky := by
  intro chunks s b b0 more h hs hb hl h0
  have hdesync : b.Desynchronised s.params := ⟨hs, b0, more, hb, hl, h0⟩
  obtain ⟨rs, hrun, hrs⟩ := hdesync.runInstrs_writes chunks
  obtain ⟨t, hexec, hserved, hresp⟩ := execAll_of_served h (chunks.map Instr.write)
  have hlen := length_runInstrs s.params b (chunks.map Instr.write)
  rw [hrun] at hserved hresp hlen
  rw [hs] at hserved
  exact ⟨t, rs, hexec, hserved, hresp, by simpa using hlen, hrs⟩

/-- Settles O27: a clean block takes the InProgress path on a valid header, where the capacity check is of one candidate for
both; on a mismatch the Empty path drops the chunk and the InProgress path keeps it. -/
theorem emptyChunkMattersOnlyOnMismatch : Obligations.EmptyChunkMattersOnlyOnMismatch := by
  intro s q data h
  have h' := served_set h { state := .inProgress, pending := [], decoded := q }
  refine ⟨?_, ?_⟩
  · rintro tag hi lo rest rfl
    obtain ⟨new, hnew⟩ := writeInProgress_candidate (parseHeader_of_delim s.params.delim tag hi lo rest) q
    have hwrite (b : Block) (hn : b.NotFailed) (hb : b.pending = []) (hq : b.decoded = q) :
        writeBlock (s.params.delim :: tag :: hi :: lo :: rest) s.params b = capCheck s.params b new okResponse :=
      (writeBlock_header_of_clean hn (fun _ => hb) (by rw [hb, List.nil_append])).trans (hnew b hq)
    have hwrite₁ := hwrite { state := .empty, pending := [], decoded := q } (by simp) rfl rfl
    have hwrite₂ := hwrite { state := .inProgress, pending := [], decoded := q } (by simp) rfl rfl
    by_cases hcaps : new.WithinCaps s.params
    · rw [capCheck_of_withinCaps hcaps] at hwrite₁ hwrite₂
      exact ⟨new, new, okResponse, answers_of_instrBlock h hwrite₁, answers_of_instrBlock h' hwrite₂, .inl (by decide),
        fun _ => rfl⟩
    · rw [capCheck_of_not_withinCaps hcaps] at hwrite₁ hwrite₂
      exact ⟨_, _, errResponse .streamBytesFull, answers_of_instrBlock h hwrite₁, answers_of_instrBlock h' hwrite₂,
        .inr (by decide), fun hok => absurd hok (by decide)⟩
  · rintro b0 more rfl hl h0 hcaps
    have hdrop := writeBlock_mismatch_of_empty (b := { state := .empty, pending := [], decoded := q }) rfl hl h0
    exact ⟨answers_of_instrBlock h hdrop,
      mismatchInProgressKeepsTheBytes _ _ _ b0 more h' rfl rfl hl h0 hcaps⟩

/-- Settles O29: the candidate of the frame is over the queue's cap, NEXT frees one place, and then it is within. -/
theorem fullQueueTakesTheChunkAfterNext : Obligations.FullQueueTakesTheChunkAfterNext := by
  intro s f q tag hi lo payload h hm hfull hl
  have hwrite (q' : List Frame) :
      instrBlock (.write (s.params.delim :: tag :: hi :: lo :: payload)) s.params ⟨.empty, [], q'⟩ =
        capCheck s.params ⟨.empty, [], q'⟩ ⟨.empty, [], q' ++ [⟨tag, payload⟩]⟩ okResponse :=
    (writeBlock_header_of_empty (b := ⟨.empty, [], q'⟩) rfl).trans (writeEmpty_equal hl)
  have hreject := (hwrite (f :: q)).trans (capCheck_of_not_withinCaps (by simp [hm, ← hfull]) _ _)
  have hnext := nextBlock_of_cons s.params (b := ⟨.empty, [], f :: q⟩) (by simp) rfl
  have haccept := (hwrite q).trans (capCheck_of_withinCaps (fun _ => ⟨Nat.zero_le _, by simp [← hfull]⟩) _ _)
  have hrun := runInstrs_cons_of hreject
    (runInstrs_cons_of (i := .next) hnext (runInstrs_cons_of haccept (runInstrs_nil _ _)))
  rw [execAll_eq_of_served h, hrun]
  rfl

/-- Settles O38: each instance becomes the reset block, whatever it was. -/
theorem powerOnResetsEveryInstance : Obligations.PowerOnResetsEveryInstance := by
  intro s more h
  rw [step_of_powerOn h, List.map_const']
  rfl

end Sys2Proof.Machine
